-- ==== Sys2Proof/Word.lean ====
section
/-! DEFINITION. The machine's words (00_scope.md section 5, "Types"): u8 and u16 values, and the operand widths of an
instruction word (30_encoding.md R71). -/

namespace Sys2Proof

/-- An 8-bit byte: one memory cell, one V register, the delay timer (R5 `BYTE_BITS`, `REG_BITS`). -/
abbrev Byte := BitVec 8

/-- A 16-bit word: an instruction, pc, I, a stack entry (R5 `WORD_BITS`, `PC_BITS`, `I_BITS`, `STACK_ENTRY_BITS`). -/
abbrev Word := BitVec 16

/-- The 12-bit address operand `nnn` (R71). -/
abbrev Addr12 := BitVec 12

/-- The number of a V register, 0 to 15; a nibble of the word, so never out of range (R11). -/
abbrev Reg := Fin 16

end Sys2Proof
end

