-- ==== Sys2Proof/Machine/Flags.lean ====
section
/-! DEFINITION. What each instruction writes to VF (10_state.md R12). -/

namespace Sys2Proof.Machine

/-- A condition as a flag: 1 or 0. -/
def flagOf (c : Bool) : Byte := if c then 1 else 0

/-- `8xy4`: 1 when the exact sum is above 255, else 0 (R127). -/
def carryFlag (a b : Byte) : Byte := flagOf (decide (a.toNat + b.toNat > 255))

/-- `8xy5`, `8xy7`: bit 7 of the 8-bit difference (R128, R130). -/
def signFlag (d : Byte) : Byte := flagOf (d.getLsbD 7)

/-- `8xy6`: the bit shifted out, 0 or 1 (R129). -/
def shiftOutLow (a : Byte) : Byte := a &&& 0x01

/-- `8xyE`: the masked byte `vx & 0x80`, 0x00 or 0x80 and NOT 0 or 1 (R131, D10). -/
def shiftOutHigh (a : Byte) : Byte := a &&& 0x80

/-- `Dxyn`: 1 on a collision, else 0 (R167). -/
def collisionFlag (c : Bool) : Byte := flagOf c

end Sys2Proof.Machine
end

