-- ==== Sys2Proof/Config.lean ====
section
/-! DEFINITION. What is fixed for the machine: the constants of 00_scope.md R5, the parameter FONT (R6, R48), and the
free values behind the host's inputs (R6, R25, R26). -/

namespace Sys2Proof.Config

/-- `MEM_SIZE` (R5): bytes of memory. -/
def memSize : Nat := 4096
/-- `FONT_BASE` (R5): first address of the font table. -/
def fontBase : Nat := 0
/-- `FONT_BYTES` (R5): size of the font table. -/
def fontBytes : Nat := 80
/-- `GLYPH_BYTES` (R5): bytes of one glyph. -/
def glyphBytes : Nat := 5
/-- `PROG_BASE` (R5): first address of the program image, and the reset value of pc. -/
def progBase : Nat := 512
/-- `PROG_MAX` (R5): the largest program image. -/
def progMax : Nat := 3584

/-- The font glyphs 0 to 7 (R48's default table). -/
def fontLow : List Byte :=
  [0xF0, 0x90, 0x90, 0x90, 0xF0,  0x20, 0x60, 0x20, 0x20, 0x70,
   0xF0, 0x10, 0xF0, 0x80, 0xF0,  0xF0, 0x10, 0xF0, 0x10, 0xF0,
   0x90, 0x90, 0xF0, 0x10, 0x10,  0xF0, 0x80, 0xF0, 0x10, 0xF0,
   0xF0, 0x80, 0xF0, 0x90, 0xF0,  0xF0, 0x10, 0x20, 0x40, 0x40]

/-- The font glyphs 8 to F (R48's default table). -/
def fontHigh : List Byte :=
  [0xF0, 0x90, 0xF0, 0x90, 0xF0,  0xF0, 0x90, 0xF0, 0x10, 0xF0,
   0xF0, 0x90, 0xF0, 0x90, 0x90,  0xE0, 0x90, 0xE0, 0x90, 0xE0,
   0xF0, 0x80, 0x80, 0x80, 0xF0,  0xE0, 0x90, 0x90, 0x90, 0xE0,
   0xF0, 0x80, 0xF0, 0x80, 0xF0,  0xF0, 0x80, 0xF0, 0x80, 0x80]

/-- The default value of the parameter FONT: 80 bytes, glyph `d` at `5 * d` (R48). PRESUMED, unsafe: the source lists no
byte of it, and R48 gives this default from general knowledge (log 1). -/
def font : List Byte := fontLow ++ fontHigh

/-- FREE VALUE: the 16 key states the latch shows after the host's turn of this number, turn 0 being the first cycle's (R186, U6; log 4). -/
opaque freeKeys : Nat → Vector Bool 16

/-- FREE VALUE: the key event the host presents at its turn of this number, if any (R184, U5; log 4). -/
opaque freeKeyEvent : Nat → Option (Fin 16)

/-- FREE VALUE: the byte `random_byte()` answers after the host's turn of this number, turn 0 being the first cycle's (R132, U4; log 4). -/
opaque freeRand : Nat → Byte

/-- FREE VALUE: the close request as the host asserts it at its turn of this number (R210; log 4). -/
opaque freeCloseReq : Nat → Bool

end Sys2Proof.Config
end

