-- ==== Sys2Proof/Syntax.lean ====
section
/-! DEFINITION. The instruction set: one constructor per row of spec/opcode_table.json, in the table's order
(30_encoding.md R76), each with the operands its format gives it (R72). -/

namespace Sys2Proof

/-- The 33 instructions. An operand holds exactly the values its field of the word can hold. -/
inductive Instr where
  /-- `00E0` CLS (R166). -/
  | cls
  /-- `00EE` RET (R101). -/
  | ret
  /-- `1nnn` JP nnn (R102). -/
  | jp (nnn : Addr12)
  /-- `2nnn` CALL nnn (R103). -/
  | call (nnn : Addr12)
  /-- `3xkk` SE Vx, kk (R104). -/
  | seImm (x : Reg) (kk : Byte)
  /-- `4xkk` SNE Vx, kk (R105). -/
  | sneImm (x : Reg) (kk : Byte)
  /-- `5xy0` SE Vx, Vy (R106). -/
  | seReg (x y : Reg)
  /-- `6xkk` LD Vx, kk (R121). -/
  | ldImm (x : Reg) (kk : Byte)
  /-- `7xkk` ADD Vx, kk (R122). -/
  | addImm (x : Reg) (kk : Byte)
  /-- `8xy0` LD Vx, Vy (R123). -/
  | ldReg (x y : Reg)
  /-- `8xy1` OR Vx, Vy (R124). -/
  | orReg (x y : Reg)
  /-- `8xy2` AND Vx, Vy (R125). -/
  | andReg (x y : Reg)
  /-- `8xy3` XOR Vx, Vy (R126). -/
  | xorReg (x y : Reg)
  /-- `8xy4` ADD Vx, Vy (R127). -/
  | addReg (x y : Reg)
  /-- `8xy5` SUB Vx, Vy (R128). -/
  | sub (x y : Reg)
  /-- `8xy6` SHR Vx (R129); the word carries a `y` field that the operation ignores (R79 d). -/
  | shr (x y : Reg)
  /-- `8xy7` SUBN Vx, Vy (R130). -/
  | subn (x y : Reg)
  /-- `8xyE` SHL Vx (R131); the word carries a `y` field that the operation ignores (R79 d). -/
  | shl (x y : Reg)
  /-- `9xy0` SNE Vx, Vy (R107). -/
  | sneReg (x y : Reg)
  /-- `Annn` LD I, nnn (R141). -/
  | ldI (nnn : Addr12)
  /-- `Bnnn` JP V0, nnn (R108). -/
  | jpV0 (nnn : Addr12)
  /-- `Cxkk` RND Vx, kk (R132). -/
  | rnd (x : Reg) (kk : Byte)
  /-- `Dxyn` DRW Vx, Vy, n (R167); `n` is the number of sprite rows, 0 to 15. -/
  | drw (x y : Reg) (n : Fin 16)
  /-- `Ex9E` SKP Vx (R181). -/
  | skp (x : Reg)
  /-- `ExA1` SKNP Vx (R182). -/
  | sknp (x : Reg)
  /-- `Fx07` LD Vx, DT (R183). -/
  | ldVxDT (x : Reg)
  /-- `Fx0A` LD Vx, K (R184). -/
  | ldVxK (x : Reg)
  /-- `Fx15` LD DT, Vx (R185). -/
  | ldDTVx (x : Reg)
  /-- `Fx1E` ADD I, Vx (R142). -/
  | addI (x : Reg)
  /-- `Fx29` LD F, Vx (R143). -/
  | ldF (x : Reg)
  /-- `Fx33` LD B, Vx (R144). -/
  | ldB (x : Reg)
  /-- `Fx55` LD [I], Vx (R145); `x` is used as a count. -/
  | stRegs (x : Reg)
  /-- `Fx65` LD Vx, [I] (R146); `x` is used as a count. -/
  | ldRegs (x : Reg)
  deriving DecidableEq, Repr

end Sys2Proof
end

