-- ==== Sys2Proof/WellFormed.lean ====
section
/-! DEFINITION. Well-formedness. The operands of an instruction are typed by the width of their fields, so every term of
`Instr` is an instruction the machine can hold and run (30_encoding.md R79 e and f: every value of an operand field is legal);
what the spec still asks to be checked is the form an assembler writes (R81) and the program image (20_memory.md R49). -/

namespace Sys2Proof

/-- The form the spec's assembler syntax can write (R81): `SHR Vx` and `SHL Vx` take one operand and their unused `y` field is
assembled as 0. It is no condition of execution: the machine ignores the field (R79 d). -/
def Instr.assembled : Instr → Bool
  | .cls | .ret => true
  | .jp _ | .call _ | .ldI _ | .jpV0 _ => true
  | .seImm _ _ | .sneImm _ _ | .ldImm _ _ | .addImm _ _ | .rnd _ _ => true
  | .seReg _ _ | .sneReg _ _ | .ldReg _ _ | .orReg _ _ | .andReg _ _ | .xorReg _ _ => true
  | .addReg _ _ | .sub _ _ | .subn _ _ => true
  | .shr _ y | .shl _ y => y == 0
  | .drw _ _ _ => true
  | .skp _ | .sknp _ | .ldVxDT _ | .ldVxK _ | .ldDTVx _ => true
  | .addI _ | .ldF _ | .ldB _ | .stRegs _ | .ldRegs _ => true

/-- A program image is at most `PROG_MAX` bytes long (R49); a longer one violates the precondition of construction. -/
def imageWellFormed (program : List Byte) : Bool := decide (program.length ≤ Config.progMax)

/-- A font table is `FONT_BYTES` bytes long (R48, R6). -/
def fontWellFormed (font : List Byte) : Bool := font.length == Config.fontBytes

end Sys2Proof
end

