-- ==== Sys2Proof/Decode.lean ====
section
/-! DEFINITION. Decoding and encoding (30_encoding.md R70 to R80): the fields of a word, the decoder, total on any bytes, the
encoder, and the opcode table of R76 as data. -/

namespace Sys2Proof

/-! ## The fields of a word (R71) -/

/-- `op = w[15:12]`, the primary opcode group (R71). -/
def fieldOp (w : Word) : BitVec 4 := w.extractLsb' 12 4
/-- `x = w[11:8]`, a register number (R71). -/
def fieldX (w : Word) : Reg := (w.extractLsb' 8 4).toFin
/-- `y = w[7:4]`, a register number (R71). -/
def fieldY (w : Word) : Reg := (w.extractLsb' 4 4).toFin
/-- `n = w[3:0]`, a count or sub-opcode (R71). -/
def fieldN (w : Word) : BitVec 4 := w.extractLsb' 0 4
/-- `kk = w[7:0]`, an immediate or sub-opcode (R71). -/
def fieldKK (w : Word) : Byte := w.extractLsb' 0 8
/-- `nnn = w[11:0]`, an address (R71). -/
def fieldNNN (w : Word) : Addr12 := w.extractLsb' 0 12

/-! ## The decoder (R76, R77) -/

/-- Group 0: all 16 bits are fixed (R79 a). -/
def decodeGroup0 (w : Word) : Option Instr :=
  if fieldNNN w = 0x0E0#12 then some .cls
  else if fieldNNN w = 0x0EE#12 then some .ret
  else none

/-- Group 8: the low nibble selects (R79 b). -/
def decodeGroup8 (w : Word) : Option Instr :=
  match fieldN w with
  | 0x0#4 => some (.ldReg (fieldX w) (fieldY w))
  | 0x1#4 => some (.orReg (fieldX w) (fieldY w))
  | 0x2#4 => some (.andReg (fieldX w) (fieldY w))
  | 0x3#4 => some (.xorReg (fieldX w) (fieldY w))
  | 0x4#4 => some (.addReg (fieldX w) (fieldY w))
  | 0x5#4 => some (.sub (fieldX w) (fieldY w))
  | 0x6#4 => some (.shr (fieldX w) (fieldY w))
  | 0x7#4 => some (.subn (fieldX w) (fieldY w))
  | 0xE#4 => some (.shl (fieldX w) (fieldY w))
  | _ => none

/-- Group E: the low byte selects (R79 c). -/
def decodeGroupE (w : Word) : Option Instr :=
  if fieldKK w = 0x9E#8 then some (.skp (fieldX w))
  else if fieldKK w = 0xA1#8 then some (.sknp (fieldX w))
  else none

/-- Group F: the low byte selects (R79 c). -/
def decodeGroupF (w : Word) : Option Instr :=
  if fieldKK w = 0x07#8 then some (.ldVxDT (fieldX w))
  else if fieldKK w = 0x0A#8 then some (.ldVxK (fieldX w))
  else if fieldKK w = 0x15#8 then some (.ldDTVx (fieldX w))
  else if fieldKK w = 0x1E#8 then some (.addI (fieldX w))
  else if fieldKK w = 0x29#8 then some (.ldF (fieldX w))
  else if fieldKK w = 0x33#8 then some (.ldB (fieldX w))
  else if fieldKK w = 0x55#8 then some (.stRegs (fieldX w))
  else if fieldKK w = 0x65#8 then some (.ldRegs (fieldX w))
  else none

/-- The instruction of a word, or none where the word matches no pattern: an unknown opcode (R76, R77). It depends on the word
alone (R83). -/
def decodeWord (w : Word) : Option Instr :=
  match fieldOp w with
  | 0x0#4 => decodeGroup0 w
  | 0x1#4 => some (.jp (fieldNNN w))
  | 0x2#4 => some (.call (fieldNNN w))
  | 0x3#4 => some (.seImm (fieldX w) (fieldKK w))
  | 0x4#4 => some (.sneImm (fieldX w) (fieldKK w))
  | 0x5#4 => if fieldN w = 0#4 then some (.seReg (fieldX w) (fieldY w)) else none
  | 0x6#4 => some (.ldImm (fieldX w) (fieldKK w))
  | 0x7#4 => some (.addImm (fieldX w) (fieldKK w))
  | 0x8#4 => decodeGroup8 w
  | 0x9#4 => if fieldN w = 0#4 then some (.sneReg (fieldX w) (fieldY w)) else none
  | 0xA#4 => some (.ldI (fieldNNN w))
  | 0xB#4 => some (.jpV0 (fieldNNN w))
  | 0xC#4 => some (.rnd (fieldX w) (fieldKK w))
  | 0xD#4 => some (.drw (fieldX w) (fieldY w) (fieldN w).toFin)
  | 0xE#4 => decodeGroupE w
  -- 0xF, the one value left
  | _ => decodeGroupF w

/-- Why a sequence of bytes is no instruction. -/
inductive DecodeError where
  /-- Fewer than two bytes are left. -/
  | truncated
  /-- The word matches none of the 33 patterns (R77). In the machine such a word is a no-operation, not a fault (R204). -/
  | unknownOpcode (w : Word)
  deriving DecidableEq, Repr

/-- The word of two bytes, the byte at the lower address being the high byte (R44, R70). -/
def bigEndian (hi lo : Byte) : Word := hi ++ lo

/-- The first instruction of a sequence of bytes, with the bytes after it. -/
def decode : List Byte → Except DecodeError (Instr × List Byte)
  | hi :: lo :: rest =>
    match decodeWord (bigEndian hi lo) with
    | some i => .ok (i, rest)
    | none => .error (.unknownOpcode (bigEndian hi lo))
  | _ => .error .truncated

/-! ## The encoder (R72, R76) -/

/-- `kk = {y, n}` (R71). -/
def kkOf (y : Reg) (n : BitVec 4) : Byte := BitVec.ofFin (w := 4) y ++ n
/-- `nnn = {x, kk}` (R71). -/
def nnnOf (x : Reg) (kk : Byte) : Addr12 := BitVec.ofFin (w := 4) x ++ kk
/-- Format `NNN` (R72). -/
def wordNNN (op : BitVec 4) (nnn : Addr12) : Word := op ++ nnn
/-- Formats `XKK` and, with a fixed low byte, `XSS` (R72). -/
def wordXKK (op : BitVec 4) (x : Reg) (kk : Byte) : Word := wordNNN op (nnnOf x kk)
/-- Format `XYN` (R72). -/
def wordXYN (op : BitVec 4) (x y : Reg) (n : BitVec 4) : Word := wordXKK op x (kkOf y n)

/-- The word of an instruction (R76). -/
def encodeWord : Instr → Word
  | .cls => 0x00E0
  | .ret => 0x00EE
  | .jp nnn => wordNNN 0x1 nnn
  | .call nnn => wordNNN 0x2 nnn
  | .seImm x kk => wordXKK 0x3 x kk
  | .sneImm x kk => wordXKK 0x4 x kk
  | .seReg x y => wordXYN 0x5 x y 0x0
  | .ldImm x kk => wordXKK 0x6 x kk
  | .addImm x kk => wordXKK 0x7 x kk
  | .ldReg x y => wordXYN 0x8 x y 0x0
  | .orReg x y => wordXYN 0x8 x y 0x1
  | .andReg x y => wordXYN 0x8 x y 0x2
  | .xorReg x y => wordXYN 0x8 x y 0x3
  | .addReg x y => wordXYN 0x8 x y 0x4
  | .sub x y => wordXYN 0x8 x y 0x5
  | .shr x y => wordXYN 0x8 x y 0x6
  | .subn x y => wordXYN 0x8 x y 0x7
  | .shl x y => wordXYN 0x8 x y 0xE
  | .sneReg x y => wordXYN 0x9 x y 0x0
  | .ldI nnn => wordNNN 0xA nnn
  | .jpV0 nnn => wordNNN 0xB nnn
  | .rnd x kk => wordXKK 0xC x kk
  | .drw x y n => wordXYN 0xD x y (BitVec.ofFin (w := 4) n)
  | .skp x => wordXKK 0xE x 0x9E
  | .sknp x => wordXKK 0xE x 0xA1
  | .ldVxDT x => wordXKK 0xF x 0x07
  | .ldVxK x => wordXKK 0xF x 0x0A
  | .ldDTVx x => wordXKK 0xF x 0x15
  | .addI x => wordXKK 0xF x 0x1E
  | .ldF x => wordXKK 0xF x 0x29
  | .ldB x => wordXKK 0xF x 0x33
  | .stRegs x => wordXKK 0xF x 0x55
  | .ldRegs x => wordXKK 0xF x 0x65

/-- The high byte of a word, stored at the lower address (R70). -/
def highByte (w : Word) : Byte := w.extractLsb' 8 8
/-- The low byte of a word, stored at the higher address (R70). -/
def lowByte (w : Word) : Byte := w.extractLsb' 0 8

/-- The two bytes of an instruction as memory holds them (R70). -/
def encode (i : Instr) : List Byte := [highByte (encodeWord i), lowByte (encodeWord i)]

/-! ## The opcode table of R76 as data -/

/-- The `match` and `mask` columns of R76 and the instruction a matching word is: a word matches when `w & mask == match`. -/
structure OpcodeRow where
  /-- the `match` column -/
  value : Word
  /-- the `mask` column -/
  mask : Word
  /-- the operation of the row with the word's operands -/
  instr : Word → Instr

/-- The word matches the row's pattern (R76). -/
def OpcodeRow.Matches (r : OpcodeRow) (w : Word) : Bool := w &&& r.mask == r.value

/-- Rows 1 to 9 of R76. -/
def opcodeTableA : List OpcodeRow :=
  [⟨0x00E0, 0xFFFF, fun _ => .cls⟩,
   ⟨0x00EE, 0xFFFF, fun _ => .ret⟩,
   ⟨0x1000, 0xF000, fun w => .jp (fieldNNN w)⟩,
   ⟨0x2000, 0xF000, fun w => .call (fieldNNN w)⟩,
   ⟨0x3000, 0xF000, fun w => .seImm (fieldX w) (fieldKK w)⟩,
   ⟨0x4000, 0xF000, fun w => .sneImm (fieldX w) (fieldKK w)⟩,
   ⟨0x5000, 0xF00F, fun w => .seReg (fieldX w) (fieldY w)⟩,
   ⟨0x6000, 0xF000, fun w => .ldImm (fieldX w) (fieldKK w)⟩,
   ⟨0x7000, 0xF000, fun w => .addImm (fieldX w) (fieldKK w)⟩]

/-- Rows 10 to 19 of R76. -/
def opcodeTableB : List OpcodeRow :=
  [⟨0x8000, 0xF00F, fun w => .ldReg (fieldX w) (fieldY w)⟩,
   ⟨0x8001, 0xF00F, fun w => .orReg (fieldX w) (fieldY w)⟩,
   ⟨0x8002, 0xF00F, fun w => .andReg (fieldX w) (fieldY w)⟩,
   ⟨0x8003, 0xF00F, fun w => .xorReg (fieldX w) (fieldY w)⟩,
   ⟨0x8004, 0xF00F, fun w => .addReg (fieldX w) (fieldY w)⟩,
   ⟨0x8005, 0xF00F, fun w => .sub (fieldX w) (fieldY w)⟩,
   ⟨0x8006, 0xF00F, fun w => .shr (fieldX w) (fieldY w)⟩,
   ⟨0x8007, 0xF00F, fun w => .subn (fieldX w) (fieldY w)⟩,
   ⟨0x800E, 0xF00F, fun w => .shl (fieldX w) (fieldY w)⟩,
   ⟨0x9000, 0xF00F, fun w => .sneReg (fieldX w) (fieldY w)⟩]

/-- Rows 20 to 33 of R76. -/
def opcodeTableC : List OpcodeRow :=
  [⟨0xA000, 0xF000, fun w => .ldI (fieldNNN w)⟩,
   ⟨0xB000, 0xF000, fun w => .jpV0 (fieldNNN w)⟩,
   ⟨0xC000, 0xF000, fun w => .rnd (fieldX w) (fieldKK w)⟩,
   ⟨0xD000, 0xF000, fun w => .drw (fieldX w) (fieldY w) (fieldN w).toFin⟩,
   ⟨0xE09E, 0xF0FF, fun w => .skp (fieldX w)⟩,
   ⟨0xE0A1, 0xF0FF, fun w => .sknp (fieldX w)⟩,
   ⟨0xF007, 0xF0FF, fun w => .ldVxDT (fieldX w)⟩,
   ⟨0xF00A, 0xF0FF, fun w => .ldVxK (fieldX w)⟩,
   ⟨0xF015, 0xF0FF, fun w => .ldDTVx (fieldX w)⟩,
   ⟨0xF01E, 0xF0FF, fun w => .addI (fieldX w)⟩,
   ⟨0xF029, 0xF0FF, fun w => .ldF (fieldX w)⟩,
   ⟨0xF033, 0xF0FF, fun w => .ldB (fieldX w)⟩,
   ⟨0xF055, 0xF0FF, fun w => .stRegs (fieldX w)⟩,
   ⟨0xF065, 0xF0FF, fun w => .ldRegs (fieldX w)⟩]

/-- The 33 rows of R76, in its order. -/
def opcodeTable : List OpcodeRow := opcodeTableA ++ opcodeTableB ++ opcodeTableC

/-! ## The host's reading of a table row -/

/-- The bytes, in memory order, of the instruction whose low `nbits` bits are `w`, the bits above being 0. -/
def tableBytes (nbits w : Nat) : List Byte :=
  let word := BitVec.ofNat 16 (w % 2 ^ nbits)
  [highByte word, lowByte word]

/-- What the decoder reads from an instruction numbered as the opcode table numbers it: none where the decoder refuses. -/
def decodeTableWord (nbits w : Nat) : Option Instr :=
  match decode (tableBytes nbits w) with
  | .ok (i, _) => some i
  | .error _ => none

end Sys2Proof
end

