-- ==== Sys2Proof/Machine/State.lean ====
section
/-! DEFINITION. The machine's state (10_state.md R10), the reasons a run stops (60_exceptions.md R200), and the state after
reset (10_state.md R29). All of it is plain data. -/

namespace Sys2Proof.Machine

/-- A fault a cycle can raise, with the info the `fault` output carries: the complete list of R200. -/
inductive FaultKind where
  /-- `OutOfBounds.Mem(a)`: `a` is the lowest out-of-range address the access needed (R201). Raised by the fetch of any cycle
  and by `Dxyn`, `Fx33`, `Fx55`, `Fx65`. The spec's own fault: safe. -/
  | memOutOfBounds (addr : Nat)
  /-- `OutOfBounds.Stack(s)`: `s` is the value of SP (R202). Raised by `2nnn` at SP = 16 and `00EE` at SP = 0. The spec's own
  fault: safe. -/
  | stackOutOfBounds (sp : Nat)
  /-- `KeyIndex(v)`: `v` is the value of Vx (R203). Raised by `Ex9E` and `ExA1` when Vx > 15. The spec's own fault: safe. -/
  | keyIndex (value : Nat)
  deriving DecidableEq, Repr

/-- `RUN`, the run status (R24). -/
inductive RunStatus where
  /-- The next cycle is taken. -/
  | running
  /-- A fault was raised; no further cycle is ever taken, and the state is not a final state of a successful run. -/
  | faulted (kind : FaultKind)
  /-- A close request was observed between two cycles; no further cycle is taken. -/
  | halted
  deriving DecidableEq, Repr

/-- Why a step answers no next state. -/
inductive Fault where
  /-- `step` at a state whose RUN is FAULTED: no further cycle is taken (R24). The fault itself was recorded in RUN by the
  cycle that raised it (R206; log 3). Safe. -/
  | stopped (kind : FaultKind)
  /-- `step` at a state whose RUN is HALTED: no further cycle is taken (R24). Safe. -/
  | halted
  /-- `execLdVxK` when the host presents no key event: the operation is not enabled (R184, U5). `cycle` hands it on, and `step`
  answers it with a wait in which only the host moves (log 5). Safe. -/
  | awaitingKey
  deriving DecidableEq, Repr

/-- Why an instruction has no meaning. -/
inductive Refusal where
  /-- Raised by `exec` for an instruction whose meaning is not written. No arm raises it: every instruction of the table has
  its meaning. Safe. -/
  | notModelled (mnemonic : String)
  deriving DecidableEq, Repr

/-- The signals the host presents to one cycle (R28); inputs of the block, not state of it (R25; log 4). -/
structure HostInputs where
  /-- `keys[k]` is true while key `k` is down (R186). -/
  keys : Vector Bool 16
  /-- The key whose transition to pressed is presented, if any (R184). -/
  keyEvent : Option (Fin 16)
  /-- The answer of `random_byte()` in this cycle (R132). -/
  rand : Byte
  /-- The host asks the run to end (R210). -/
  closeReq : Bool
  deriving DecidableEq, Repr

/-- MEM (R20, R40): the bytes that differ from what an unlisted address reads as, addresses strictly rising. -/
abbrev Memory := List Host.Cell

/-- FB (R21, R160): 32 rows of 64 one-bit cells, row-major. -/
abbrev FrameBuffer := Vector (Vector Bool 64) 32

/-- The state of the machine: the components of R10, the record of `fb_updated`, and the host's inputs (log 4, log 6). -/
structure State where
  /-- `V[0..15]`; `V[15]` is VF (R11, R12). -/
  v : Vector Byte 16
  /-- `pc`, the address of the next instruction (R13). -/
  pc : Word
  /-- `I`, the address register (R16). -/
  i : Word
  /-- `DT`, the delay timer (R17). -/
  dt : Byte
  /-- `SP`, the number of return addresses on the stack, 0 to 16 (R18). -/
  sp : Fin 17
  /-- `STACK[0..15]` (R19). -/
  stack : Vector Word 16
  /-- `MEM[0..4095]` (R20). -/
  mem : Memory
  /-- `FB[0..63, 0..31]` (R21). -/
  fb : FrameBuffer
  /-- `RUN` (R24). -/
  run : RunStatus
  /-- How many times `fb_updated` has been raised (R28, R168); a record of an output, read by no instruction (log 6). -/
  fbUpdates : Nat
  /-- What the host presents to the coming cycle (R28). The model's own field (log 4). -/
  inputs : HostInputs
  /-- What the host will present at its coming turns, first turn first; after its end the inputs are free values. The model's
  own field (log 4). -/
  pending : List HostInputs
  /-- The number of the host's next turn, at which the free values are read; turn 0 is what it presents to the first cycle. The
  model's own field (log 4). -/
  turn : Nat
  deriving DecidableEq, Repr

/-- What the host presents at a turn of which nothing is said: the free values at its number (R6, R26, R132, R186; log 4). -/
def freeInputs (turn : Nat) : HostInputs :=
  { keys := Config.freeKeys turn
    keyEvent := Config.freeKeyEvent turn
    rand := Config.freeRand turn
    closeReq := Config.freeCloseReq turn }

/-- The machine right after reset (R29, R231): constructed with the default font and an empty program image. `pc` is the
source's; the zeros of the other registers are the spec's decision D3 (log 2); memory lists nothing, so it reads as the font
and zeros (R49). What the host presents to the first cycle is free, as at every later turn: the free values at turn 0 (log 4). -/
def State.reset : State :=
  { v := Vector.replicate 16 0
    pc := 0x0200
    i := 0
    dt := 0
    sp := 0
    stack := Vector.replicate 16 0
    mem := []
    fb := Vector.replicate 32 (Vector.replicate 64 false)
    run := .running
    fbUpdates := 0
    inputs := freeInputs 0
    pending := []
    turn := 1 }

end Sys2Proof.Machine
end

