-- ==== Sys2Proof/Machine/Ops.lean ====
section
/-! DEFINITION. The named operations over the state: registers, memory, the call stack, taking a fault, the parts of a cycle
that surround the operation, and the host's turn between cycles. -/

namespace Sys2Proof.Machine

/-! ## Registers (R11, R13, R16, R17) -/

/-- `V[r]` (R11): no register is hard-wired. -/
def State.getV (s : State) (r : Reg) : Byte := s.v[r.val]

/-- `V[r] <- b` (R11). -/
def State.setV (s : State) (r : Reg) (b : Byte) : State := { s with v := s.v.set r.val b }

/-- `VF <- b`, the flag written as a side effect (R12). -/
def State.setFlag (s : State) (b : Byte) : State := s.setV 15 b

/-- `pc <- a` (R13). -/
def State.setPc (s : State) (a : Word) : State := { s with pc := a }

/-- `I <- a` (R16). -/
def State.setI (s : State) (a : Word) : State := { s with i := a }

/-- `DT <- b` (R17). -/
def State.setDT (s : State) (b : Byte) : State := { s with dt := b }

/-- `RUN <- r` (R24). -/
def State.setRun (s : State) (r : RunStatus) : State := { s with run := r }

/-- The memory replaced. -/
def State.setMem (s : State) (m : Memory) : State := { s with mem := m }

/-- The framebuffer replaced. -/
def State.setFb (s : State) (fb : FrameBuffer) : State := { s with fb := fb }

/-- The bytes `V[0..x]`, V0 first (R145). -/
def State.regRun (s : State) (x : Reg) : List Byte := s.v.toList.take (x.val + 1)

/-- The register file after `V[k] <- b` for the bytes in turn, `k` counting up from the given number (R146). -/
def writeRegs (v : Vector Byte 16) : Nat → List Byte → Vector Byte 16
  | _, [] => v
  | k, b :: bs => writeRegs (v.setIfInBounds k b) (k + 1) bs

/-- `V[0] <- …, V[1] <- …` for the bytes in turn (R146). -/
def State.loadRegRun (s : State) (bytes : List Byte) : State := { s with v := writeRegs s.v 0 bytes }

/-! ## Memory (R40 to R57) -/

/-- What an address that memory does not list reads as: the font table at the bottom, zero elsewhere (R41, R49). The font's
bytes are PRESUMED (log 1); the zeros of 0x050 to 0x1FF are the spec's decision D4 (log 2). -/
def resetByte (a : Nat) : Byte := (Config.font[a]?).getD 0

/-- `MEM[a]` (R50: a read changes nothing). -/
def Memory.read : Memory → Nat → Byte
  | [], a => resetByte a
  | (b, u) :: rest, a => if a = b then u else Memory.read rest a

/-- `MEM[a] <- u`, keeping the canonical form (R42, R50: a write changes exactly the addressed byte). -/
def Memory.write : Memory → Nat → Byte → Memory
  | [], a, u => if u = resetByte a then [] else [(a, u)]
  | (b, w) :: rest, a, u =>
    if a < b then (if u = resetByte a then (b, w) :: rest else (a, u) :: (b, w) :: rest)
    else if a = b then (if u = resetByte a then rest else (a, u) :: rest)
    else (b, w) :: Memory.write rest a u

/-- Every listed address is at least `lo`, in the address space, strictly above the one before it, and its byte is not what the
address reads as when unlisted. -/
def Memory.wfFrom : Nat → Memory → Bool
  | _, [] => true
  | lo, (a, u) :: rest =>
    decide (lo ≤ a) && decide (a < Config.memSize) && decide (u ≠ resetByte a) && Memory.wfFrom (a + 1) rest

/-- The canonical form: equal memories are equal lists. -/
def Memory.wf (m : Memory) : Bool := Memory.wfFrom 0 m

/-- `MemRange(addr, len)` (R46): the check made once, before any byte of a run moves. The sum is a mathematical integer (R57),
and the reported address is the lowest out-of-range one. With `len = 1` it is the precondition of a byte access (R42), with
`len = 2` that of a word read (R43). -/
def memRange (addr len : Nat) : Except FaultKind Unit :=
  if 1 ≤ len ∧ addr + len - 1 > 0xFFF then .error (.memOutOfBounds (max addr 0x1000)) else .ok ()

/-- The bytes at `addr, addr + 1, …`, `len` of them. -/
def Memory.readBytes (m : Memory) (addr : Nat) : Nat → List Byte
  | 0 => []
  | len + 1 => Memory.read m addr :: Memory.readBytes m (addr + 1) len

/-- The bytes stored at `addr, addr + 1, …` in ascending order (R52). -/
def Memory.writeBytes (m : Memory) (addr : Nat) : List Byte → Memory
  | [] => m
  | b :: bs => Memory.writeBytes (Memory.write m addr b) (addr + 1) bs

/-- A read of a run of `len` bytes: the whole range is checked first (R46), so nothing moves when it faults. -/
def State.readRun (s : State) (addr len : Nat) : Except FaultKind (List Byte) :=
  match memRange addr len with
  | .error k => .error k
  | .ok () => .ok (Memory.readBytes s.mem addr len)

/-- A store of a run of bytes: the whole range is checked first (R46), so nothing is stored when it faults. -/
def State.writeRun (s : State) (addr : Nat) (bytes : List Byte) : Except FaultKind State :=
  match memRange addr bytes.length with
  | .error k => .error k
  | .ok () => .ok (s.setMem (Memory.writeBytes s.mem addr bytes))

/-! ## The call stack (R18, R19) -/

/-- `STACK[SP] <- a; SP <- SP + 1` (R103); OutOfBounds.Stack at SP = 16, before anything is written (R202). -/
def State.push (s : State) (a : Word) : Except FaultKind State :=
  if h : s.sp.val < 16 then
    .ok { s with stack := s.stack.set s.sp.val a, sp := ⟨s.sp.val + 1, by omega⟩ }
  else .error (.stackOutOfBounds s.sp.val)

/-- `SP <- SP - 1` and the entry `STACK[SP]`, which stays in the stack (R101, R19); OutOfBounds.Stack at SP = 0 (R202). -/
def State.pop (s : State) : Except FaultKind (Word × State) :=
  if h : 0 < s.sp.val then
    .ok (s.stack[s.sp.val - 1], { s with sp := ⟨s.sp.val - 1, by omega⟩ })
  else .error (.stackOutOfBounds s.sp.val)

/-! ## Taking a fault (R206)

There is no return from a fault (R211): no operation leaves FAULTED. -/

/-- `raise K(info)`: the cycle ends and `RUN <- FAULTED(K, info)`; nothing else happens: no handler, no saved pc (R206). -/
def State.raise (s : State) (k : FaultKind) : State := s.setRun (.faulted k)

/-- The outcome of a step of the machine. -/
abbrev Outcome := Host.Outcome State Fault Refusal

/-- Goes on with what a checked access answered, or takes the fault it raised; since every check precedes the operation's first
write, a fault is precise (R207). -/
def State.orRaise {α : Type} (s : State) (r : Except FaultKind α) (f : α → State) : Outcome :=
  match r with
  | .ok a => .next (f a)
  | .error k => .next (s.raise k)

/-! ## The parts of a cycle around the operation (R74) -/

/-- Step 1, the timer tick: `if DT > 0 then DT <- DT - 1` (R180). -/
def State.tick (s : State) : State := s.setDT (if s.dt = 0 then 0 else s.dt - 1)

/-- Step 2, the fetch: `MemRead(pc, 2)`, the big-endian word at pc (R43). -/
def State.fetch (s : State) : Except FaultKind Word :=
  match memRange s.pc.toNat 2 with
  | .error k => .error k
  | .ok () => .ok (bigEndian (Memory.read s.mem s.pc.toNat) (Memory.read s.mem (s.pc.toNat + 1)))

/-- Step 4, the advance: `pc <- (pc + 2) mod 65536` (R75). -/
def State.advance (s : State) : State := s.setPc (s.pc + 2)

/-- A skip: a further `pc <- (pc + 2) mod 65536` when the condition holds (R100 e, R104). -/
def State.skipIf (s : State) (c : Bool) : State := if c then s.setPc (s.pc + 2) else s

/-- The operation of a word that matches no pattern: nothing (R77). -/
def execUnknown (s : State) : Outcome := .next s

/-! ## The host's turn between cycles (R55, R210) -/

/-- What the host presents next: the head of what is pending, else free values. -/
def State.nextInputs (s : State) : HostInputs :=
  match s.pending with
  | h :: _ => h
  | [] => freeInputs s.turn

/-- The host refreshes its signals (R55 a); the block's own state is untouched. -/
def State.refresh (s : State) : State :=
  { s with inputs := s.nextInputs, pending := s.pending.tail, turn := s.turn + 1 }

/-- `close_req` is sampled: true makes a RUNNING block HALTED and changes nothing else; after a fault it has no effect (R210,
R208). -/
def State.sampleClose (s : State) : State :=
  s.setRun (match s.run with
    | .running => if s.inputs.closeReq then .halted else .running
    | .faulted k => .faulted k
    | .halted => .halted)

/-- What happens after a completed cycle: the host refreshes its signals, then `close_req` is sampled (R210). -/
def State.afterCycle (s : State) : State := s.refresh.sampleClose

/-! ## Outputs (R28) -/

/-- The event `fb_updated` is raised (R166, R167, R168). -/
def State.signalUpdate (s : State) : State := { s with fbUpdates := s.fbUpdates + 1 }

/-- The `fault` output: the kind and info while RUN is FAULTED (R28, R206). -/
def State.faultOut (s : State) : Option FaultKind :=
  match s.run with
  | .faulted k => some k
  | .running => none
  | .halted => none

/-- The `halted` output (R28). -/
def State.haltedOut (s : State) : Bool := s.run == .halted

/-! ## Construction (R49, R231) -/

/-- The machine constructed with a font table and a program image (R49, R231): memory is zero, then the font at 0, then the
image at 0x200; every register as at reset. None where the image is too long or the font is not 80 bytes: the machine is not
built (R49, D17; log 11). -/
def State.construct (font program : List Byte) : Option State :=
  if fontWellFormed font && imageWellFormed program then
    some (State.reset.setMem
      (Memory.writeBytes (Memory.writeBytes [] Config.fontBase font) Config.progBase program))
  else none

/-- A word stored big-endian at `pc`, where the machine fetches its next instruction; as it is where `pc` leaves no room for
two bytes, since nothing can be fetched there (R43). -/
def State.placeWord (s : State) (w : Word) : State :=
  match memRange s.pc.toNat 2 with
  | .ok () => s.setMem (Memory.writeBytes s.mem s.pc.toNat [highByte w, lowByte w])
  | .error _ => s

end Sys2Proof.Machine
end

