-- ==== Sys2Proof/Machine/Operands.lean ====
section
/-! DEFINITION. The operand forms: how an immediate becomes an address, how `I` addresses memory, the glyph address, the decimal
digits, the key a register names. Every immediate is zero-extended; nothing is sign-extended (30_encoding.md R73). -/

namespace Sys2Proof.Machine

/-- `zext_16(nnn)`: an absolute byte address (R73). -/
def zextAddr (nnn : Addr12) : Word := nnn.setWidth 16

/-- `zext_16(v)` of an 8-bit value (R73). -/
def zextByte (b : Byte) : Word := b.setWidth 16

/-- `nnn + V0` in 16 bits; never reduced to 12 (R108). -/
def offsetTarget (nnn : Addr12) (v0 : Byte) : Word := zextAddr nnn + zextByte v0

/-- The address of glyph `vx`: `vx * 5`, not masked to the low nibble (R143). -/
def glyphAddr (vx : Byte) : Word := zextByte vx * 5

/-- The base of a data access: `I` as a mathematical integer (R140, R57). -/
def State.base (s : State) : Nat := s.i.toNat

/-- The decimal digits of a value, hundreds, tens, ones, each a number 0 to 9 (R144). -/
def bcdDigits (vx : Byte) : List Byte :=
  [BitVec.ofNat 8 (vx.toNat / 100), BitVec.ofNat 8 (vx.toNat / 10 % 10), BitVec.ofNat 8 (vx.toNat % 10)]

/-- `keys[vx]`, or the fault KeyIndex when the value is above 15: never masked to 4 bits (R181, R203). -/
def State.keyDown (s : State) (vx : Byte) : Except FaultKind Bool :=
  if h : vx.toNat < 16 then .ok s.inputs.keys[vx.toNat] else .error (.keyIndex vx.toNat)

/-- `VF <- flag` first, then `V[x] <- result`: the order of the source's table, so with `x = 15` the result survives (R133). -/
def State.setFlagThenV (s : State) (flag : Byte) (x : Reg) (result : Byte) : State := (s.setFlag flag).setV x result

end Sys2Proof.Machine
end

