-- ==== Sys2Proof/Machine/Alu.lean ====
section
/-! DEFINITION. Register load, arithmetic, logic, shift and random (41_alu.md). `vx` and `vy` are sampled before anything is
written (R73); none of these faults, touches memory or moves pc beyond the advance. -/

namespace Sys2Proof.Machine

/-- `6xkk` LD Vx, kk (R121). -/
def execLdImm (x : Reg) (kk : Byte) (s : State) : Outcome := .next (s.setV x kk)

/-- `7xkk` ADD Vx, kk (R122): wraps, no flag. -/
def execAddImm (x : Reg) (kk : Byte) (s : State) : Outcome := .next (s.setV x (s.getV x + kk))

/-- `8xy0` LD Vx, Vy (R123). -/
def execLdReg (x y : Reg) (s : State) : Outcome := .next (s.setV x (s.getV y))

/-- `8xy1` OR Vx, Vy (R124): VF is not cleared. -/
def execOrReg (x y : Reg) (s : State) : Outcome := .next (s.setV x (s.getV x ||| s.getV y))

/-- `8xy2` AND Vx, Vy (R125): VF is not cleared. -/
def execAndReg (x y : Reg) (s : State) : Outcome := .next (s.setV x (s.getV x &&& s.getV y))

/-- `8xy3` XOR Vx, Vy (R126): VF is not cleared. -/
def execXorReg (x y : Reg) (s : State) : Outcome := .next (s.setV x (s.getV x ^^^ s.getV y))

/-- `8xy4` ADD Vx, Vy (R127, R133). -/
def execAddReg (x y : Reg) (s : State) : Outcome :=
  let vx := s.getV x
  let vy := s.getV y
  .next (s.setFlagThenV (carryFlag vx vy) x (vx + vy))

/-- `8xy5` SUB Vx, Vy (R128, R133). -/
def execSub (x y : Reg) (s : State) : Outcome :=
  let d := s.getV x - s.getV y
  .next (s.setFlagThenV (signFlag d) x d)

/-- `8xy6` SHR Vx (R129, R133): the `y` field is ignored (R79 d). -/
def execShr (x _y : Reg) (s : State) : Outcome :=
  let vx := s.getV x
  .next (s.setFlagThenV (shiftOutLow vx) x (vx >>> 1))

/-- `8xy7` SUBN Vx, Vy (R130, R133): the destination is still Vx. -/
def execSubn (x y : Reg) (s : State) : Outcome :=
  let d := s.getV y - s.getV x
  .next (s.setFlagThenV (signFlag d) x d)

/-- `8xyE` SHL Vx (R131, R133): the `y` field is ignored (R79 d). -/
def execShl (x _y : Reg) (s : State) : Outcome :=
  let vx := s.getV x
  .next (s.setFlagThenV (shiftOutHigh vx) x (vx <<< 1))

/-- `Cxkk` RND Vx, kk (R132): the byte is what the host presents to this cycle, a free input (log 4). -/
def execRnd (x : Reg) (kk : Byte) (s : State) : Outcome := .next (s.setV x (s.inputs.rand &&& kk))

end Sys2Proof.Machine
end

