-- ==== Sys2Proof/Machine/Control.lean ====
section
/-! DEFINITION. Control transfer (40_control.md). In every meaning `pc` already holds the address of the instruction plus 2
(R75), so a skip adds a further 2 and CALL pushes the address of the following instruction. None writes a V register
(R100 g). -/

namespace Sys2Proof.Machine

/-- `00EE` RET (R101): all 16 bits of the popped entry go to pc (D26); OutOfBounds.Stack when SP = 0 (R202). -/
def execRet (s : State) : Outcome := s.orRaise s.pop fun p => p.2.setPc p.1

/-- `1nnn` JP nnn (R102). -/
def execJp (nnn : Addr12) (s : State) : Outcome := .next (s.setPc (zextAddr nnn))

/-- `2nnn` CALL nnn (R103): OutOfBounds.Stack when SP = 16, before anything is pushed (R202). -/
def execCall (nnn : Addr12) (s : State) : Outcome := s.orRaise (s.push s.pc) fun t => t.setPc (zextAddr nnn)

/-- `3xkk` SE Vx, kk (R104). -/
def execSeImm (x : Reg) (kk : Byte) (s : State) : Outcome := .next (s.skipIf (s.getV x == kk))

/-- `4xkk` SNE Vx, kk (R105). -/
def execSneImm (x : Reg) (kk : Byte) (s : State) : Outcome := .next (s.skipIf (s.getV x != kk))

/-- `5xy0` SE Vx, Vy (R106). -/
def execSeReg (x y : Reg) (s : State) : Outcome := .next (s.skipIf (s.getV x == s.getV y))

/-- `9xy0` SNE Vx, Vy (R107). -/
def execSneReg (x y : Reg) (s : State) : Outcome := .next (s.skipIf (s.getV x != s.getV y))

/-- `Bnnn` JP V0, nnn (R108): the register is always V0. -/
def execJpV0 (nnn : Addr12) (s : State) : Outcome := .next (s.setPc (offsetTarget nnn (s.getV 0)))

end Sys2Proof.Machine
end

