-- ==== Sys2Proof/Machine/Display.lean ====
section
/-! DEFINITION. The framebuffer, the XOR blit and the display instructions (43_display.md). -/

namespace Sys2Proof.Machine

/-! ## Pixel access and clear (R161, R162) -/

/-- `get_pixel(x, y)`: `FB[x, y]`; the bounds of R162 are the types'. -/
def FrameBuffer.pixel (fb : FrameBuffer) (x : Fin 64) (y : Fin 32) : Bool := fb[y.val][x.val]

/-- `set_pixel(x, y, on)` (R162). -/
def FrameBuffer.setPixel (fb : FrameBuffer) (x : Fin 64) (y : Fin 32) (b : Bool) : FrameBuffer :=
  fb.set y.val (fb[y.val].set x.val b)

/-- `clear()`: every cell off (R161). -/
def FrameBuffer.blank : FrameBuffer := Vector.replicate 32 (Vector.replicate 64 false)

/-- The display collaborator's read port `fb_pixel(x, y)` (R28, R162, R168). -/
def State.fbPixel (s : State) (x : Fin 64) (y : Fin 32) : Bool := FrameBuffer.pixel s.fb x y

/-! ## The XOR blit (R163, R164) -/

/-- A column reduced modulo 64: wraparound, not clipping (R163). -/
def wrapX (x : Nat) : Fin 64 := ⟨x % 64, Nat.mod_lt _ (by decide)⟩

/-- A row reduced modulo 32: wraparound, not clipping (R163). -/
def wrapY (y : Nat) : Fin 32 := ⟨y % 32, Nat.mod_lt _ (by decide)⟩

/-- One sprite bit equal to 1: the cell is toggled, and a collision noted when it was on (R163, R164). The pair is the
framebuffer and the collision so far. -/
def blitPixel (x y : Nat) (p : FrameBuffer × Bool) : FrameBuffer × Bool :=
  let old := FrameBuffer.pixel p.1 (wrapX x) (wrapY y)
  (FrameBuffer.setPixel p.1 (wrapX x) (wrapY y) (!old), p.2 || old)

/-- One bit of a row, `i` counting from the most significant bit; a 0 bit is a no-op (R163 c). -/
def blitBit (x0 y : Nat) (row : Byte) (p : FrameBuffer × Bool) (i : Nat) : FrameBuffer × Bool :=
  if row.getLsbD (7 - i) then blitPixel (x0 + i) y p else p

/-- The eight bit positions of a row, most significant bit first (R163). -/
def bitPositions : List Nat := [0, 1, 2, 3, 4, 5, 6, 7]

/-- One row of the sprite (R163). -/
def blitRow (x0 y : Nat) (row : Byte) (p : FrameBuffer × Bool) : FrameBuffer × Bool :=
  bitPositions.foldl (blitBit x0 y row) p

/-- The rows of the sprite, top first, each one row lower than the one before (R163). -/
def blitRows (x0 : Nat) : Nat → List Byte → FrameBuffer × Bool → FrameBuffer × Bool
  | _, [], p => p
  | y, row :: rows, p => blitRows x0 (y + 1) rows (blitRow x0 y row p)

/-- `draw(x0, y0, sprite)` (R163): the framebuffer after it, and the collision (R164). -/
def FrameBuffer.draw (fb : FrameBuffer) (x0 y0 : Nat) (sprite : List Byte) : FrameBuffer × Bool :=
  blitRows x0 y0 sprite (fb, false)

/-! ## The instructions -/

/-- `00E0` CLS (R166): VF is not written; `fb_updated` is raised. -/
def execCls (s : State) : Outcome := .next (s.setFb FrameBuffer.blank).signalUpdate

/-- What `Dxyn` does with the sprite it has read (R167): draw at the sampled `vx`, `vy`, write VF, raise `fb_updated`. -/
def State.drawSprite (s : State) (vx vy : Byte) (sprite : List Byte) : State :=
  let d := FrameBuffer.draw s.fb vx.toNat vy.toNat sprite
  ((s.setFb d.1).setFlag (collisionFlag d.2)).signalUpdate

/-- `Dxyn` DRW Vx, Vy, n (R167): with `n = 0` nothing is read or drawn, VF becomes 0, and it never faults (D14). -/
def execDrw (x y : Reg) (n : Fin 16) (s : State) : Outcome :=
  s.orRaise (s.readRun s.base n.val) (s.drawSprite (s.getV x) (s.getV y))

end Sys2Proof.Machine
end

