-- ==== Sys2Proof/Machine/IndexMemory.lean ====
section
/-! DEFINITION. The address register and memory transfers (42_index_memory.md). `Fx33`, `Fx55` and `Fx65` leave `I` unchanged
(R140); the range of a transfer is checked whole before any byte moves (R46). -/

namespace Sys2Proof.Machine

/-- `Annn` LD I, nnn (R141). -/
def execLdI (nnn : Addr12) (s : State) : Outcome := .next (s.setI (zextAddr nnn))

/-- `Fx1E` ADD I, Vx (R142): wraps modulo 65536 (D12), no flag. -/
def execAddI (x : Reg) (s : State) : Outcome := .next (s.setI (s.i + zextByte (s.getV x)))

/-- `Fx29` LD F, Vx (R143). -/
def execLdF (x : Reg) (s : State) : Outcome := .next (s.setI (glyphAddr (s.getV x)))

/-- `Fx33` LD B, Vx (R144). -/
def execLdB (x : Reg) (s : State) : Outcome := s.orRaise (s.writeRun s.base (bcdDigits (s.getV x))) id

/-- `Fx55` LD [I], Vx (R145). -/
def execStRegs (x : Reg) (s : State) : Outcome := s.orRaise (s.writeRun s.base (s.regRun x)) id

/-- `Fx65` LD Vx, [I] (R146). -/
def execLdRegs (x : Reg) (s : State) : Outcome := s.orRaise (s.readRun s.base (x.val + 1)) s.loadRegRun

end Sys2Proof.Machine
end

