-- ==== Sys2Proof/Machine/InputTimer.lean ====
section
/-! DEFINITION. The delay timer and key instructions (44_input_timer.md). -/

namespace Sys2Proof.Machine

/-- `Ex9E` SKP Vx (R181): KeyIndex when the value of Vx is above 15 (R203). -/
def execSkp (x : Reg) (s : State) : Outcome := s.orRaise (s.keyDown (s.getV x)) fun down => s.skipIf down

/-- `ExA1` SKNP Vx (R182): "up" is the negation of "down"; KeyIndex when the value of Vx is above 15 (R203). -/
def execSknp (x : Reg) (s : State) : Outcome := s.orRaise (s.keyDown (s.getV x)) fun down => s.skipIf (!down)

/-- `Fx07` LD Vx, DT (R183): DT as it is after this cycle's tick. -/
def execLdVxDT (x : Reg) (s : State) : Outcome := .next (s.setV x s.dt)

/-- `Fx0A` LD Vx, K (R184): the operation is enabled only when the host presents a key event; until then it has no result, and
the step is a wait (log 5). -/
def execLdVxK (x : Reg) (s : State) : Outcome :=
  match s.inputs.keyEvent with
  | some k => .next (s.setV x (BitVec.ofNat 8 k.val))
  | none => .fault .awaitingKey

/-- `Fx15` LD DT, Vx (R185): replaces whatever the tick left. -/
def execLdDTVx (x : Reg) (s : State) : Outcome := .next (s.setDT (s.getV x))

end Sys2Proof.Machine
end

