-- ==== Sys2Proof/Machine/Cycle.lean ====
section
/-! DEFINITION. The cycle of 30_encoding.md R74 and what a step of the machine is. Step.lean only calls what is here. -/

namespace Sys2Proof.Machine

/-- Steps 4 and 5 for a fetched word: the advance, then the operation of the pattern the word matches, or nothing (R74 to
R77). -/
def dispatchWord (s : State) (w : Word) : Outcome :=
  match decodeWord w with
  | some i => exec i s.advance
  | none => execUnknown s.advance

/-- The whole cycle (R74): tick, fetch, decode, advance, dispatch. A fetch fault ends it with pc unadvanced and the timer
ticked (R207). -/
def cycle (s : State) : Outcome :=
  match s.tick.fetch with
  | .ok w => dispatchWord s.tick w
  | .error k => .next (s.tick.raise k)

/-- What the host makes of a cycle's outcome: after a completed cycle it takes its turn and `close_req` is sampled (R210); where
the cycle is not enabled, the block waits, nothing of it changes, and only the host's signals move: `close_req` is not sampled
during a wait (R184 c; log 5). -/
def settle (s : State) : Outcome → Outcome
  | .next t => .next t.afterCycle
  | .fault .awaitingKey => .next s.refresh
  | .fault r => .fault r
  | .refused r => .refused r

/-- One step: a cycle when RUN = RUNNING; otherwise no further cycle is ever taken (R24). -/
def runStep (s : State) : Outcome :=
  match s.run with
  | .running => settle s (cycle s)
  | .faulted k => .fault (.stopped k)
  | .halted => .fault .halted

end Sys2Proof.Machine
end

