-- ==== Sys2Proof/Machine/Step.lean ====
section
/-! DEFINITION. The step of the machine, and the placing of an instruction where it fetches its next one. -/

namespace Sys2Proof.Machine

/-- One step of the machine (R74; Cycle.lean). -/
def step (s : State) : Host.Outcome State Fault Refusal := runStep s

/-- The state with an instruction, numbered as the opcode table numbers it, stored at pc, where the next cycle fetches. -/
def State.withFetchWord (s : State) (nbits w : Nat) : State := s.placeWord (BitVec.ofNat 16 (w % 2 ^ nbits))

end Sys2Proof.Machine
end

