-- ==== Sys2Proof/Safety.lean ====
section
/-! DEFINITION. The vocabulary of claims: the parts of the state and what an instruction may write (10_state.md R23), when an
operation faults (60_exceptions.md R200, 70_reset_and_hazards.md R242), the invariant of the machine, the pixels of a sprite,
and what a safe or a finished run is. -/

namespace Sys2Proof.Machine

/-! ## Frames -/

/-- The parts of the state: the components of R10, the record of `fb_updated`, and the host's side. -/
inductive Part where
  | v | pc | i | dt | sp | stack | mem | fb | run | fbUpdates | host
  deriving DecidableEq, Repr

/-- The part is the same in both states. For memory, every address also reads as before. -/
def Part.Same (s t : State) : Part → Prop
  | .v => ∀ r, t.getV r = s.getV r
  | .pc => t.pc = s.pc
  | .i => t.i = s.i
  | .dt => t.dt = s.dt
  | .sp => t.sp = s.sp
  | .stack => t.stack = s.stack
  | .mem => t.mem = s.mem ∧ ∀ a, Memory.read t.mem a = Memory.read s.mem a
  | .fb => t.fb = s.fb
  | .run => t.run = s.run
  | .fbUpdates => t.fbUpdates = s.fbUpdates
  | .host => t.inputs = s.inputs ∧ t.pending = s.pending ∧ t.turn = s.turn

/-- Every part but the listed ones is the same in both states. -/
def SameExcept (ps : List Part) (s t : State) : Prop := ∀ p, p ∉ ps → p.Same s t

/-- Every V register but the listed ones is the same in both states. -/
def RegsSameExcept (rs : List Reg) (s t : State) : Prop := ∀ r, r ∉ rs → t.getV r = s.getV r

/-- Every address outside the `len` bytes at `addr` reads as before. -/
def MemSameOutside (addr len : Nat) (s t : State) : Prop :=
  ∀ a, a < addr ∨ addr + len ≤ a → Memory.read t.mem a = Memory.read s.mem a

/-! ## What an instruction does when it completes -/

/-- The instruction completes with `V[x] = b` and nothing else changed. -/
def WritesReg (i : Instr) (s : State) (x : Reg) (b : Byte) : Prop :=
  ∃ t, exec i s = .next t ∧ t.getV x = b ∧ RegsSameExcept [x] s t ∧ SameExcept [.v] s t

/-- The instruction completes with `V[x]` the result and, where `x` is not VF itself, VF the flag; nothing else changes. With
`x = 15` the result is what VF holds (R133, D9; log 8). -/
def WritesRegAndFlag (i : Instr) (s : State) (x : Reg) (result flag : Byte) : Prop :=
  ∃ t, exec i s = .next t ∧ t.getV x = result ∧ (x ≠ 15 → t.getV 15 = flag) ∧
    RegsSameExcept [x, 15] s t ∧ SameExcept [.v] s t

/-- The instruction completes by a skip exactly when the condition holds: a further 2 on pc, which already holds the address of
the instruction plus 2, so 4 in all (R75, R100 e); nothing else changes. -/
def Skips (i : Instr) (s : State) (c : Prop) : Prop :=
  ∃ t, exec i s = .next t ∧ (c → t.pc = s.pc + 2) ∧ (¬ c → t.pc = s.pc) ∧ SameExcept [.pc] s t

/-- The operation takes the fault: RUN becomes FAULTED with its kind and info, and nothing else changes (R206, R207; log 3). -/
def Raises (i : Instr) (s : State) (k : FaultKind) : Prop := exec i s = .next { s with run := .faulted k }

/-! ## What an instruction may write and when it faults -/

/-- The parts an instruction that does not fault may write: the "w" columns of R23. -/
def writtenParts : Instr → List Part
  | .cls => [.fb, .fbUpdates]
  | .ret => [.pc, .sp]
  | .jp _ | .jpV0 _ => [.pc]
  | .call _ => [.pc, .sp, .stack]
  | .seImm _ _ | .sneImm _ _ | .seReg _ _ | .sneReg _ _ | .skp _ | .sknp _ => [.pc]
  | .ldImm _ _ | .addImm _ _ | .ldReg _ _ | .orReg _ _ | .andReg _ _ | .xorReg _ _ => [.v]
  | .addReg _ _ | .sub _ _ | .shr _ _ | .subn _ _ | .shl _ _ | .rnd _ _ => [.v]
  | .ldI _ | .addI _ | .ldF _ => [.i]
  | .drw _ _ _ => [.v, .fb, .fbUpdates]
  | .ldVxDT _ | .ldVxK _ | .ldRegs _ => [.v]
  | .ldDTVx _ => [.dt]
  | .ldB _ | .stRegs _ => [.mem]

/-- The V registers an instruction may write: the V columns of R23, VF as a flag included (R12). -/
def mayWriteV : Instr → Reg → Bool
  | .ldImm x _, r | .addImm x _, r | .ldReg x _, r | .orReg x _, r | .andReg x _, r | .xorReg x _, r => r == x
  | .rnd x _, r | .ldVxDT x, r | .ldVxK x, r => r == x
  | .addReg x _, r | .sub x _, r | .shr x _, r | .subn x _, r | .shl x _, r => r == x || r == 15
  | .drw _ _ _, r => r == 15
  | .ldRegs x, r => decide (r.val ≤ x.val)
  | .cls, _ | .ret, _ | .jp _, _ | .call _, _ | .jpV0 _, _ | .ldI _, _ => false
  | .seImm _ _, _ | .sneImm _ _, _ | .seReg _ _, _ | .sneReg _ _, _ | .skp _, _ | .sknp _, _ => false
  | .ldDTVx _, _ | .addI _, _ | .ldF _, _ | .ldB _, _ | .stRegs _, _ => false

/-- The condition of R242 under which the operation of an instruction does not fault. -/
def OperandsInRange (s : State) : Instr → Prop
  | .call _ => s.sp.val ≤ 15
  | .ret => 1 ≤ s.sp.val
  | .drw _ _ n => n.val = 0 ∨ s.i.toNat + n.val - 1 ≤ 0xFFF
  | .ldB _ => s.i.toNat ≤ 0xFFD
  | .stRegs x | .ldRegs x => s.i.toNat + x.val ≤ 0xFFF
  | .skp x | .sknp x => (s.getV x).toNat ≤ 15
  | .cls | .jp _ | .jpV0 _ | .ldI _ | .addI _ | .ldF _ => True
  | .seImm _ _ | .sneImm _ _ | .seReg _ _ | .sneReg _ _ => True
  | .ldImm _ _ | .addImm _ _ | .ldReg _ _ | .orReg _ _ | .andReg _ _ | .xorReg _ _ => True
  | .addReg _ _ | .sub _ _ | .shr _ _ | .subn _ _ | .shl _ _ | .rnd _ _ => True
  | .ldVxDT _ | .ldVxK _ | .ldDTVx _ => True

/-- The fault an instruction raises when it is not in range, with its info (the table of R200); none where it cannot fault. -/
def operandFault (s : State) : Instr → Option FaultKind
  | .call _ => some (.stackOutOfBounds 16)
  | .ret => some (.stackOutOfBounds 0)
  | .drw _ _ _ | .ldB _ | .stRegs _ | .ldRegs _ => some (.memOutOfBounds (max s.i.toNat 0x1000))
  | .skp x | .sknp x => some (.keyIndex (s.getV x).toNat)
  | .cls | .jp _ | .jpV0 _ | .ldI _ | .addI _ | .ldF _ => none
  | .seImm _ _ | .sneImm _ _ | .seReg _ _ | .sneReg _ _ => none
  | .ldImm _ _ | .addImm _ _ | .ldReg _ _ | .orReg _ _ | .andReg _ _ | .xorReg _ _ => none
  | .addReg _ _ | .sub _ _ | .shr _ _ | .subn _ _ | .shl _ _ | .rnd _ _ => none
  | .ldVxDT _ | .ldVxK _ | .ldDTVx _ => none

/-- The instruction reads a signal of the host: the "outside" column of R23, inputs only. -/
def readsHost : Instr → Bool
  | .rnd _ _ | .skp _ | .sknp _ | .ldVxK _ => true
  | .cls | .ret | .jp _ | .call _ | .jpV0 _ | .ldI _ | .addI _ | .ldF _ => false
  | .seImm _ _ | .sneImm _ _ | .seReg _ _ | .sneReg _ _ => false
  | .ldImm _ _ | .addImm _ _ | .ldReg _ _ | .orReg _ _ | .andReg _ _ | .xorReg _ _ => false
  | .addReg _ _ | .sub _ _ | .shr _ _ | .subn _ _ | .shl _ _ | .drw _ _ _ => false
  | .ldVxDT _ | .ldDTVx _ | .ldB _ | .stRegs _ | .ldRegs _ => false

/-- How many bytes an instruction that does not fault stores, from the address `State.base` on: the memory column of R23. -/
def storedLength : Instr → Nat
  | .ldB _ => 3
  | .stRegs x => x.val + 1
  | .cls | .ret | .jp _ | .call _ | .jpV0 _ | .ldI _ | .addI _ | .ldF _ => 0
  | .seImm _ _ | .sneImm _ _ | .seReg _ _ | .sneReg _ _ | .skp _ | .sknp _ => 0
  | .ldImm _ _ | .addImm _ _ | .ldReg _ _ | .orReg _ _ | .andReg _ _ | .xorReg _ _ => 0
  | .addReg _ _ | .sub _ _ | .shr _ _ | .subn _ _ | .shl _ _ | .rnd _ _ | .drw _ _ _ => 0
  | .ldVxDT _ | .ldVxK _ | .ldDTVx _ | .ldRegs _ => 0

/-! ## Steps and runs -/

/-- The word at pc, high byte first (R43). -/
def State.wordAtPc (s : State) : Word :=
  bigEndian (Memory.read s.mem s.pc.toNat) (Memory.read s.mem (s.pc.toNat + 1))

/-- The block takes a cycle that fetches the instruction `i` (R43, R74, R76): RUN = RUNNING, both bytes at pc are in range, and
they decode to it. -/
def Fetches (s : State) (i : Instr) : Prop :=
  s.run = .running ∧ s.pc.toNat ≤ 0xFFE ∧ decodeWord s.wordAtPc = some i

/-- The state the operation of a cycle starts from: the timer ticked and pc advanced (R73, R74). -/
def State.atOperation (s : State) : State := { s with dt := s.dt - (if s.dt = 0 then 0 else 1), pc := s.pc + 2 }

/-- The invariant of the machine: memory is in canonical form; pc and every stack entry stay within the bounds of R15. -/
def Inv (s : State) : Prop :=
  Memory.wf s.mem = true ∧ s.pc.toNat ≤ 0x10FE ∧ ∀ j : Fin 16, (s.stack[j.val]).toNat ≤ 0x1000

/-- The run has gone wrong: RUN is FAULTED (R206, R241 b). No claim that a program computes a value holds of such a state. -/
def State.Faulted (s : State) : Prop := ∃ k, s.run = .faulted k

/-- The run has ended well: RUN is HALTED (R241 a). -/
def State.Ended (s : State) : Prop := s.run = .halted

/-- The model's value of the parameter END_OF_RUN: the suggested predicate, pc at a word `1nnn` with `nnn = pc` (R241), and,
the model's own addition (DESIGN CHOICE, log 14), RUN = RUNNING: a HALTED or FAULTED block at such a word is told apart by
State.Ended and State.Faulted. The block does not stop there, and the timer still ticks. -/
def EndOfRun (s : State) : Prop := ∃ nnn : Addr12, Fetches s (.jp nnn) ∧ s.pc = zextAddr nnn

/-- A safe run of `n` steps: it does not stop, and no cycle of it faulted. -/
def SafeFor (n : Nat) (s : State) : Prop := ∃ t, Sys2Proof.core.run n s = .next t ∧ ¬ t.Faulted

/-! ## The pixels of a sprite (R163, R165 b) -/

/-- The `mask` of R165 (b): a 1 bit `(j, i)` of the sprite drawn at `(x0, y0)` lands on the cell `(cx, cy)`. -/
def SpriteHits (x0 y0 : Nat) (sprite : List Byte) (cx : Fin 64) (cy : Fin 32) : Prop :=
  ∃ j i, ∃ h : j < sprite.length, i < 8 ∧ (sprite[j]).getLsbD (7 - i) = true ∧
    (x0 + i) % 64 = cx.val ∧ (y0 + j) % 32 = cy.val

end Sys2Proof.Machine
end

