-- ==== Sys2Proof/Certificates/Slice0/Obligations.lean ====
section
/-! DEFINITION. The statements. In each, `exec i s` is the operation of the instruction (30_encoding.md R74 step 5): `s` is the
state after the timer tick and the advance, so `s.pc` holds the address of the instruction plus 2 (R75). "log <n>" is
notes/assumptions/<n>.md, "D<n>" a row of 92_eei_decisions.md. -/

open Sys2Proof Sys2Proof.Machine

/-! ## Encoding -/

/-- Decoding the word, or the bytes, of any instruction gives it back with every operand (R72, R76). -/
def Obligations.DecodeInvertsEncode : Prop :=
  ∀ i : Instr, decodeWord (encodeWord i) = some i ∧ ∀ rest, decode (encode i ++ rest) = .ok (i, rest)

/-- Two bytes that decode to an instruction are the bytes of that instruction: no recognised word has two meanings, and no bit
of one is dropped (R70, R71, R76). -/
def Obligations.EncodeInvertsDecode : Prop :=
  ∀ (hi lo : Byte) (rest rest' : List Byte) (i : Instr),
    decode (hi :: lo :: rest) = .ok (i, rest') → encode i = [hi, lo] ∧ rest' = rest

/-- The decoder gives an instruction exactly when a row of the opcode table matches by mask and value, and gives the row's
(R76, the match and mask columns). -/
def Obligations.DecoderIsTheOpcodeTable : Prop :=
  ∀ (w : Word) (i : Instr), decodeWord w = some i ↔ ∃ r ∈ opcodeTable, r.Matches w = true ∧ r.instr w = i

/-- The table has 33 rows and its patterns are pairwise disjoint: no word matches two (R76). -/
def Obligations.OpcodePatternsAreDisjoint : Prop :=
  opcodeTable.length = 33 ∧
  opcodeTable.Pairwise fun r r' => ∀ w : Word, ¬ (r.Matches w = true ∧ r'.Matches w = true)

/-- The unknown words are exactly those of R78, group by group. -/
def Obligations.UnknownWordsAreThoseOfTheTable : Prop :=
  ∀ w : Word, decodeWord w = none ↔
    (fieldOp w = 0x0#4 ∧ fieldNNN w ≠ 0x0E0#12 ∧ fieldNNN w ≠ 0x0EE#12) ∨
    (fieldOp w = 0x5#4 ∧ fieldN w ≠ 0#4) ∨
    (fieldOp w = 0x8#4 ∧ fieldN w ∈ [0x8#4, 0x9#4, 0xA#4, 0xB#4, 0xC#4, 0xD#4, 0xF#4]) ∨
    (fieldOp w = 0x9#4 ∧ fieldN w ≠ 0#4) ∨
    (fieldOp w = 0xE#4 ∧ fieldKK w ∉ [0x9E#8, 0xA1#8]) ∨
    (fieldOp w = 0xF#4 ∧
      fieldKK w ∉ [0x07#8, 0x0A#8, 0x15#8, 0x1E#8, 0x29#8, 0x33#8, 0x55#8, 0x65#8])

/-- Words written out from the patterns of R76 decode to what they stand for. -/
def Obligations.SampleWordsDecode : Prop :=
  decodeWord 0x00E0 = some .cls ∧ decodeWord 0x00EE = some .ret ∧ decodeWord 0x2ABC = some (.call 0xABC) ∧
  decodeWord 0x332A = some (.seImm 3 0x2A) ∧ decodeWord 0x8FE6 = some (.shr 15 14) ∧
  decodeWord 0xD125 = some (.drw 1 2 5) ∧ decodeWord 0xEBA1 = some (.sknp 11) ∧
  decodeWord 0xF755 = some (.stRegs 7) ∧ decodeWord 0xF018 = none

/-! ## The cycle and the step -/

/-- A step runs the decoded instruction: where the block fetches `i`, the step is `exec i` after the tick and the advance,
followed by the host's turn; where the operation waits for a key, only the host moves (R74, R76, R210, R184; log 5). These are
the two answers `exec` can give (EveryOperationHasAResult). -/
def Obligations.StepRunsTheFetchedInstruction : Prop :=
  ∀ (s : State) (i : Instr), Fetches s i →
    (∀ t, exec i s.atOperation = .next t → step s = .next t.afterCycle) ∧
    (exec i s.atOperation = .fault .awaitingKey → step s = .next s.refresh)

/-- A word that matches no pattern is a no-operation: the timer ticks, pc advances by 2, nothing else changes and nothing is
reported (R77, R204; D11 records that this is the source's own choice, kept by the spec). -/
def Obligations.UnknownWordIsNoOperation : Prop :=
  ∀ s : State, s.run = .running → s.pc.toNat ≤ 0xFFE → decodeWord s.wordAtPc = none →
    ∃ t, cycle s = .next t ∧ t.pc.toNat = s.pc.toNat + 2 ∧ t.dt.toNat = s.dt.toNat - 1 ∧ SameExcept [.pc, .dt] s t

/-- The word placed at pc is the word the next cycle's fetch gives, high byte at the lower address; no other byte changes
(R43, R44). -/
def Obligations.PlacedWordIsFetched : Prop :=
  ∀ (s : State) (w : Nat), Memory.wf s.mem = true → s.pc.toNat ≤ 0xFFE →
    (s.withFetchWord 16 w).fetch = .ok (BitVec.ofNat 16 w) ∧ (s.withFetchWord 16 w).wordAtPc = BitVec.ofNat 16 w ∧
    Memory.read (s.withFetchWord 16 w).mem s.pc.toNat = BitVec.ofNat 8 (w / 256) ∧
    Memory.read (s.withFetchWord 16 w).mem (s.pc.toNat + 1) = BitVec.ofNat 8 w ∧
    MemSameOutside s.pc.toNat 2 s (s.withFetchWord 16 w) ∧ SameExcept [.mem] s (s.withFetchWord 16 w)

/-- A fetch that needs an address above 0xFFF faults with the lowest such address; pc keeps the address of the fetch, the timer
has ticked, nothing else changed, and the fault survives the host's turn (60_exceptions.md sections 1 and 2; the state at a fault
and the reported address are the spec's decisions D13 and D22; log 3). -/
def Obligations.FetchPastTheEndFaults : Prop :=
  ∀ s : State, s.run = .running → 0xFFF ≤ s.pc.toNat →
    ∃ t, cycle s = .next t ∧ t.run = .faulted (.memOutOfBounds (max s.pc.toNat 0x1000)) ∧
      t.dt.toNat = s.dt.toNat - 1 ∧ SameExcept [.dt, .run] s t ∧
      ∃ u, step s = .next u ∧ u.run = t.run ∧ SameExcept [.host] t u

/-- A FAULTED or HALTED block takes no further cycle: the step answers no next state (10_state.md section 6; RUN is the spec's
decision D13, D19). -/
def Obligations.StoppedBlockTakesNoCycle : Prop :=
  ∀ s : State, (∀ k, s.run = .faulted k → step s = .fault (.stopped k)) ∧ (s.run = .halted → step s = .fault .halted)

/-- After a completed cycle the host's next signals are presented and `close_req` is sampled: RUNNING becomes HALTED exactly when
it is asserted, FAULTED stays FAULTED, and nothing else of the block changes (60_exceptions.md section 3, the spec's decision
D19). Where turns are pending the first of them is what the host presents (log 4). -/
def Obligations.CloseRequestIsSampledAfterTheCycle : Prop :=
  ∀ s t : State, s.run = .running → cycle s = .next t →
    ∃ u, step s = .next u ∧ u.inputs = s.nextInputs ∧ SameExcept [.run, .host] t u ∧
      (t.run = .running → u.run = if s.nextInputs.closeReq = true then .halted else .running) ∧
      (∀ k, t.run = .faulted k → u.run = .faulted k) ∧
      (∀ h rest, s.pending = h :: rest → u.inputs = h ∧ u.pending = rest)

/-- While `Fx0A` has no key event the block waits: nothing of the block changes, the timer does not tick, RUN stays RUNNING
whatever `close_req` shows, and the host's next signals are presented (44_input_timer.md section 3, the spec's decision D20; the
wait as a step is the model's, log 5). -/
def Obligations.WaitForKeyChangesNothing : Prop :=
  ∀ (s : State) (x : Reg), Fetches s (.ldVxK x) → s.inputs.keyEvent = none →
    ∃ t, step s = .next t ∧ t.inputs = s.nextInputs ∧ SameExcept [.host] s t

/-- The timer is decremented once, saturating at zero, before the fetched operation runs, and the tick and the advance change
nothing else; so every cycle that completes or faults, whatever the word, leaves it one lower, but for `Fx15`, whose operation
then writes it; no cycle starts, so no tick, when RUN is not RUNNING (R180). -/
def Obligations.EveryCycleTicksTheTimer : Prop :=
  ∀ s : State,
    s.atOperation.dt.toNat = s.dt.toNat - 1 ∧ SameExcept [.dt, .pc] s s.atOperation ∧
    (∀ i, Fetches s i → cycle s = exec i s.atOperation) ∧
    (s.run = .running → (∀ x, ¬ Fetches s (.ldDTVx x)) → ∀ t, cycle s = .next t → t.dt.toNat = s.dt.toNat - 1) ∧
    (s.run ≠ .running → ∀ t, step s ≠ .next t)

/-! ## Control transfer -/

/-- RET with a return address on the stack pops it into pc, all 16 bits, and leaves the entry in the stack; at SP = 0 it faults
and changes nothing else (40_control.md RET, 60_exceptions.md section 1; no masking is the spec's decision D26, the fault D7 and
D13; log 3). -/
def Obligations.RetPopsTheReturnAddress : Prop :=
  ∀ s : State,
    (∀ _ : 0 < s.sp.val, ∃ t, exec .ret s = .next t ∧ t.sp.val = s.sp.val - 1 ∧
      t.pc = s.stack[s.sp.val - 1] ∧ SameExcept [.pc, .sp] s t) ∧
    (s.sp.val = 0 → Raises .ret s (.stackOutOfBounds 0))

/-- JP nnn sets pc to nnn and changes nothing else; no fault, no flag (R102). -/
def Obligations.JumpSetsPc : Prop :=
  (∀ w, fieldOp w = 0x1#4 → decodeWord w = some (.jp (fieldNNN w))) ∧
  ∀ (nnn : Addr12) (s : State), ∃ t, exec (.jp nnn) s = .next t ∧ t.pc.toNat = nnn.toNat ∧ SameExcept [.pc] s t

/-- CALL nnn pushes the address of the following instruction and jumps; at SP = 16 it faults and pushes nothing (40_control.md
CALL, 60_exceptions.md section 1; all 16 levels usable and the fault are the spec's decisions D7 and D13; log 3). -/
def Obligations.CallPushesTheReturnAddress : Prop :=
  ∀ (nnn : Addr12) (s : State),
    (∀ _ : s.sp.val < 16, ∃ t, exec (.call nnn) s = .next t ∧ t.sp.val = s.sp.val + 1 ∧ t.stack[s.sp.val] = s.pc ∧
      (∀ j : Fin 16, j.val ≠ s.sp.val → t.stack[j.val] = s.stack[j.val]) ∧
      t.pc.toNat = nnn.toNat ∧ SameExcept [.pc, .sp, .stack] s t) ∧
    (s.sp.val = 16 → Raises (.call nnn) s (.stackOutOfBounds 16))

/-- A RET at any later state whose SP and stack are as the CALL left them returns to the instruction after the CALL and restores
SP (40_control.md, CALL and RET; below the sixteenth level, the spec's decision D7). -/
def Obligations.RetUndoesCall : Prop :=
  ∀ (nnn : Addr12) (s t u : State), s.sp.val < 16 → exec (.call nnn) s = .next t → u.sp = t.sp → u.stack = t.stack →
    ∃ v, exec .ret u = .next v ∧ v.pc = s.pc ∧ v.sp = s.sp

/-- The four skips on registers and immediates skip exactly when their condition holds; no flag, no fault (R104 to R107). -/
def Obligations.SkipsFollowTheirCondition : Prop :=
  (∀ w, fieldOp w = 0x3#4 → decodeWord w = some (.seImm (fieldX w) (fieldKK w))) ∧
  (∀ w, fieldOp w = 0x4#4 → decodeWord w = some (.sneImm (fieldX w) (fieldKK w))) ∧
  (∀ w, fieldOp w = 0x5#4 → decodeWord w = if fieldN w = 0#4 then some (.seReg (fieldX w) (fieldY w)) else none) ∧
  (∀ w, fieldOp w = 0x9#4 → decodeWord w = if fieldN w = 0#4 then some (.sneReg (fieldX w) (fieldY w)) else none) ∧
  ∀ (x y : Reg) (kk : Byte) (s : State),
    Skips (.seImm x kk) s (s.getV x = kk) ∧ Skips (.sneImm x kk) s (s.getV x ≠ kk) ∧
    Skips (.seReg x y) s (s.getV x = s.getV y) ∧ Skips (.sneReg x y) s (s.getV x ≠ s.getV y)

/-- JP V0, nnn sets pc to the sum, not reduced to 12 bits (40_control.md JP V0; no reduction is the spec's decision D23). -/
def Obligations.JumpV0AddsTheOffset : Prop :=
  ∀ (nnn : Addr12) (s : State),
    ∃ t, exec (.jpV0 nnn) s = .next t ∧ t.pc.toNat = nnn.toNat + (s.getV 0).toNat ∧ SameExcept [.pc] s t

/-! ## Load, arithmetic, logic, shift, random -/

/-- LD and the three logic operations write Vx and nothing else: VF is not cleared (R121, R123 to R126). -/
def Obligations.LoadAndLogicWriteVx : Prop :=
  (∀ w, fieldOp w = 0x6#4 → decodeWord w = some (.ldImm (fieldX w) (fieldKK w))) ∧
  (∀ w, fieldOp w = 0x8#4 → fieldN w = 0x0#4 → decodeWord w = some (.ldReg (fieldX w) (fieldY w))) ∧
  (∀ w, fieldOp w = 0x8#4 → fieldN w = 0x1#4 → decodeWord w = some (.orReg (fieldX w) (fieldY w))) ∧
  (∀ w, fieldOp w = 0x8#4 → fieldN w = 0x2#4 → decodeWord w = some (.andReg (fieldX w) (fieldY w))) ∧
  (∀ w, fieldOp w = 0x8#4 → fieldN w = 0x3#4 → decodeWord w = some (.xorReg (fieldX w) (fieldY w))) ∧
  ∀ (x y : Reg) (kk : Byte) (s : State),
    WritesReg (.ldImm x kk) s x kk ∧ WritesReg (.ldReg x y) s x (s.getV y) ∧
    WritesReg (.orReg x y) s x (s.getV x ||| s.getV y) ∧ WritesReg (.andReg x y) s x (s.getV x &&& s.getV y) ∧
    WritesReg (.xorReg x y) s x (s.getV x ^^^ s.getV y)

/-- ADD Vx, kk wraps modulo 256 and writes no flag (R122). -/
def Obligations.AddImmediateWraps : Prop :=
  (∀ w, fieldOp w = 0x7#4 → decodeWord w = some (.addImm (fieldX w) (fieldKK w))) ∧
  ∀ (x : Reg) (kk : Byte) (s : State),
    WritesReg (.addImm x kk) s x (BitVec.ofNat 8 (((s.getV x).toNat + kk.toNat) % 256))

/-- ADD Vx, Vy: the sum modulo 256 in Vx, and VF = 1 when the exact sum is above 255, else 0; with x = 15 the sum survives
(41_alu.md ADD; the case x = 15 is the spec's decision D9, log 8). -/
def Obligations.AddSetsCarry : Prop :=
  ∀ (x y : Reg) (s : State),
    WritesRegAndFlag (.addReg x y) s x (BitVec.ofNat 8 (((s.getV x).toNat + (s.getV y).toNat) % 256))
      (if (s.getV x).toNat + (s.getV y).toNat > 255 then 1 else 0)

/-- SUB and SUBN: the difference modulo 256 in Vx, and VF = bit 7 of it (41_alu.md SUB, SUBN; the flag's reading is the spec's
decision D8, log 9; the case x = 15 is D9, log 8). -/
def Obligations.SubtractSetsSign : Prop :=
  ∀ (x y : Reg) (s : State),
    WritesRegAndFlag (.sub x y) s x (BitVec.ofNat 8 (((s.getV x).toNat + 256 - (s.getV y).toNat) % 256))
      (if ((s.getV x).toNat + 256 - (s.getV y).toNat) % 256 ≥ 128 then 1 else 0) ∧
    WritesRegAndFlag (.subn x y) s x (BitVec.ofNat 8 (((s.getV y).toNat + 256 - (s.getV x).toNat) % 256))
      (if ((s.getV y).toNat + 256 - (s.getV x).toNat) % 256 ≥ 128 then 1 else 0)

/-- SHR and SHL shift Vx by one and ignore Vy; VF is the low bit (0 or 1) or the masked high bit (0x00 or 0x80) (41_alu.md SHR,
SHL; the case x = 15 is the spec's decision D9, log 8). -/
def Obligations.ShiftsSetTheBitShiftedOut : Prop :=
  ∀ (x y : Reg) (s : State),
    WritesRegAndFlag (.shr x y) s x (BitVec.ofNat 8 ((s.getV x).toNat / 2)) (BitVec.ofNat 8 ((s.getV x).toNat % 2)) ∧
    WritesRegAndFlag (.shl x y) s x (BitVec.ofNat 8 ((s.getV x).toNat * 2 % 256))
      (if (s.getV x).toNat ≥ 128 then 0x80 else 0x00)

/-- Where the operands' difference lies in -128 to 127, the flag of SUB is 1 exactly when Vx is the smaller, so the two readings
of the source agree there (41_alu.md SUB; the reading is the spec's decision D8, log 9). -/
def Obligations.SubFlagIsBorrowInSignedRange : Prop :=
  ∀ (x y : Reg) (s t : State), x ≠ 15 → exec (.sub x y) s = .next t →
    (s.getV x).toNat ≤ (s.getV y).toNat + 127 → (s.getV y).toNat ≤ (s.getV x).toNat + 128 →
    (t.getV 15 = 1 ↔ (s.getV x).toNat < (s.getV y).toNat)

/-- RND writes the byte the host presents, masked; whatever that byte is (41_alu.md RND; the byte is an input, the spec's decision
D16, log 4). -/
def Obligations.RandomByteIsMasked : Prop :=
  ∀ (x : Reg) (kk : Byte) (s : State), WritesReg (.rnd x kk) s x (s.inputs.rand &&& kk)

/-! ## Address register and memory -/

/-- LD I, nnn (R141). -/
def Obligations.LoadIndexSetsI : Prop :=
  (∀ w, fieldOp w = 0xA#4 → decodeWord w = some (.ldI (fieldNNN w))) ∧
  ∀ (nnn : Addr12) (s : State), ∃ t, exec (.ldI nnn) s = .next t ∧ t.i.toNat = nnn.toNat ∧ SameExcept [.i] s t

/-- ADD I, Vx wraps modulo 65536 and writes no flag; LD F, Vx is Vx * 5, not masked (42_index_memory.md ADD I, LD F; the wrap is
the spec's decision D12, the missing mask D23; log 10). -/
def Obligations.AddIndexAndGlyphAddress : Prop :=
  ∀ (x : Reg) (s : State),
    (∃ t, exec (.addI x) s = .next t ∧ t.i.toNat = (s.i.toNat + (s.getV x).toNat) % 65536 ∧ SameExcept [.i] s t) ∧
    (∃ t, exec (.ldF x) s = .next t ∧ t.i.toNat = (s.getV x).toNat * 5 ∧ SameExcept [.i] s t)

/-- A byte access in the address space reads or writes exactly the addressed byte; above 0xFFF it is not performed and answers
OutOfBounds.Mem of the address (R42). Raising that makes RUN FAULTED and changes nothing else, whatever would have followed: the
entry is R206 with the spec's decision D13, and its form as a next state is the model's, log 3. -/
def Obligations.ByteAccessIsExact : Prop :=
  ∀ (s : State) (a : Nat) (b : Byte), Memory.wf s.mem = true →
    (a ≤ 0xFFF → s.readRun a 1 = .ok [Memory.read s.mem a] ∧
      ∃ t, s.writeRun a [b] = .ok t ∧ Memory.read t.mem a = b ∧ MemSameOutside a 1 s t ∧ SameExcept [.mem] s t) ∧
    (0xFFF < a → s.readRun a 1 = .error (.memOutOfBounds a) ∧ s.writeRun a [b] = .error (.memOutOfBounds a) ∧
      (∀ f, s.orRaise (s.readRun a 1) f = .next { s with run := .faulted (.memOutOfBounds a) }) ∧
      (∀ f, s.orRaise (s.writeRun a [b]) f = .next { s with run := .faulted (.memOutOfBounds a) }))

/-- LD B stores the three decimal digits at I, I+1, I+2 and no other byte; when I + 2 is above 0xFFF it faults and stores nothing
(42_index_memory.md LD B; the fault is the spec's decision D13 and D14, log 3). -/
def Obligations.BcdStoresThreeDigits : Prop :=
  ∀ (x : Reg) (s : State), Memory.wf s.mem = true →
    (s.i.toNat ≤ 0xFFD → ∃ t, exec (.ldB x) s = .next t ∧
      (Memory.read t.mem s.i.toNat).toNat = (s.getV x).toNat / 100 ∧
      (Memory.read t.mem (s.i.toNat + 1)).toNat = (s.getV x).toNat / 10 % 10 ∧
      (Memory.read t.mem (s.i.toNat + 2)).toNat = (s.getV x).toNat % 10 ∧
      MemSameOutside s.i.toNat 3 s t ∧ SameExcept [.mem] s t) ∧
    (0xFFE ≤ s.i.toNat → Raises (.ldB x) s (.memOutOfBounds (max s.i.toNat 0x1000)))

/-- LD [I], Vx stores V0 to Vx at I to I + x and no other byte; I is unchanged; out of range it faults and stores nothing
(42_index_memory.md LD [I]; I unchanged is the spec's decision D23, the fault D13 and D14, log 3). -/
def Obligations.StoreRegistersFillsTheRun : Prop :=
  ∀ (x : Reg) (s : State), Memory.wf s.mem = true →
    (s.i.toNat + x.val ≤ 0xFFF → ∃ t, exec (.stRegs x) s = .next t ∧
      (∀ k : Reg, k.val ≤ x.val → Memory.read t.mem (s.i.toNat + k.val) = s.getV k) ∧
      MemSameOutside s.i.toNat (x.val + 1) s t ∧ SameExcept [.mem] s t) ∧
    (0xFFF < s.i.toNat + x.val → Raises (.stRegs x) s (.memOutOfBounds (max s.i.toNat 0x1000)))

/-- LD Vx, [I] loads V0 to Vx from I to I + x and no other register; out of range it faults and loads nothing
(42_index_memory.md LD Vx; I unchanged is the spec's decision D23, the fault D13 and D14, log 3). -/
def Obligations.LoadRegistersReadsTheRun : Prop :=
  ∀ (x : Reg) (s : State),
    (s.i.toNat + x.val ≤ 0xFFF → ∃ t, exec (.ldRegs x) s = .next t ∧
      (∀ k : Reg, k.val ≤ x.val → t.getV k = Memory.read s.mem (s.i.toNat + k.val)) ∧
      (∀ k : Reg, x.val < k.val → t.getV k = s.getV k) ∧ SameExcept [.v] s t) ∧
    (0xFFF < s.i.toNat + x.val → Raises (.ldRegs x) s (.memOutOfBounds (max s.i.toNat 0x1000)))

/-- The round trip: registers stored by LD [I], Vx and loaded by LD Vx, [I] at any later state with the same memory and I have
their values again (42_index_memory.md LD Vx, the source's own property; I unchanged is the spec's decision D23). -/
def Obligations.StoreThenLoadRestoresRegisters : Prop :=
  ∀ (x : Reg) (s t u : State), Memory.wf s.mem = true → s.i.toNat + x.val ≤ 0xFFF → exec (.stRegs x) s = .next t →
    u.mem = t.mem → u.i = t.i →
    ∃ v, exec (.ldRegs x) u = .next v ∧ ∀ k : Reg, k.val ≤ x.val → v.getV k = s.getV k

/-- Self-modifying code: two registers stored where the next instruction stands are the word the next cycle fetches
(20_memory.md section 6). -/
def Obligations.StoreIsSeenByTheNextFetch : Prop :=
  ∀ (x : Reg) (s t : State), Memory.wf s.mem = true → 1 ≤ x.val → s.i.toNat + x.val ≤ 0xFFF → s.i = s.pc →
    exec (.stRegs x) s = .next t → t.fetch = .ok (bigEndian (s.getV 0) (s.getV 1))

/-- Memories in canonical form that read alike everywhere are the same list: equal memories are equal data (the model's own
form, 20_memory.md section 1). -/
def Obligations.CanonicalMemoriesAreEqual : Prop :=
  ∀ m m' : Memory, Memory.wf m = true → Memory.wf m' = true →
    (∀ a, Memory.read m a = Memory.read m' a) → m = m'

/-! ## Display -/

/-- CLS turns every cell off, raises `fb_updated` once, and changes nothing else (R161, R166). -/
def Obligations.ClearTurnsEveryCellOff : Prop :=
  decodeWord 0x00E0#16 = some .cls ∧
  ∀ s : State, ∃ t, exec .cls s = .next t ∧ (∀ x y, t.fbPixel x y = false) ∧ t.fbUpdates = s.fbUpdates + 1 ∧
    SameExcept [.fb, .fbUpdates] s t

/-- DRW reads n bytes at I, draws them at (Vx, Vy), sets VF to the collision and raises `fb_updated` once; with n = 0 it draws
nothing and clears VF whatever I is; out of range it faults and draws nothing (43_display.md DRW; n = 0 and the whole-range check
are the spec's decision D14, the fault D13; log 3, log 10). -/
def Obligations.DrawReadsTheSpriteAtI : Prop :=
  ∀ (x y : Reg) (n : Fin 16) (s : State),
    (n.val = 0 ∨ s.i.toNat + n.val - 1 ≤ 0xFFF → ∃ t, exec (.drw x y n) s = .next t ∧
      t.fb = (FrameBuffer.draw s.fb (s.getV x).toNat (s.getV y).toNat (Memory.readBytes s.mem s.i.toNat n.val)).1 ∧
      t.getV 15 = (if (FrameBuffer.draw s.fb (s.getV x).toNat (s.getV y).toNat
        (Memory.readBytes s.mem s.i.toNat n.val)).2 = true then 1 else 0) ∧
      (n.val = 0 → t.fb = s.fb ∧ t.getV 15 = 0) ∧
      RegsSameExcept [15] s t ∧ t.fbUpdates = s.fbUpdates + 1 ∧ SameExcept [.v, .fb, .fbUpdates] s t) ∧
    (1 ≤ n.val → 0xFFF < s.i.toNat + n.val - 1 → Raises (.drw x y n) s (.memOutOfBounds (max s.i.toNat 0x1000)))

/-- The blit is an exclusive or with the sprite's mask, wrapped at both edges, and the collision says that the mask met a cell
that was on (43_display.md section 1, properties (a) and (b)). -/
def Obligations.DrawXorsTheSpriteMask : Prop :=
  ∀ (fb : FrameBuffer) (x0 y0 : Nat) (sprite : List Byte), sprite.length ≤ 15 →
    (∀ cx cy, FrameBuffer.pixel (FrameBuffer.draw fb x0 y0 sprite).1 cx cy = true ↔
      ¬ (FrameBuffer.pixel fb cx cy = true ↔ SpriteHits x0 y0 sprite cx cy)) ∧
    ((FrameBuffer.draw fb x0 y0 sprite).2 = true ↔
      ∃ cx cy, SpriteHits x0 y0 sprite cx cy ∧ FrameBuffer.pixel fb cx cy = true)

/-- A collision is reported exactly when the draw turned at least one cell from on to off (R164). -/
def Obligations.CollisionMeansACellWentOff : Prop :=
  ∀ (fb : FrameBuffer) (x0 y0 : Nat) (sprite : List Byte), sprite.length ≤ 15 →
    ((FrameBuffer.draw fb x0 y0 sprite).2 = true ↔
      ∃ cx cy, FrameBuffer.pixel fb cx cy = true ∧ FrameBuffer.pixel (FrameBuffer.draw fb x0 y0 sprite).1 cx cy = false)

/-- Drawing the same sprite twice at the same place restores the framebuffer, and the second collision says that the first draw
turned a cell on (43_display.md section 1, properties (c) and (d)). -/
def Obligations.DrawingTwiceRestores : Prop :=
  ∀ (fb : FrameBuffer) (x0 y0 : Nat) (sprite : List Byte), sprite.length ≤ 15 →
    (FrameBuffer.draw (FrameBuffer.draw fb x0 y0 sprite).1 x0 y0 sprite).1 = fb ∧
    ((FrameBuffer.draw (FrameBuffer.draw fb x0 y0 sprite).1 x0 y0 sprite).2 = true ↔
      ∃ cx cy, FrameBuffer.pixel fb cx cy = false ∧ FrameBuffer.pixel (FrameBuffer.draw fb x0 y0 sprite).1 cx cy = true)

/-! ## Keys and timer -/

/-- SKP and SKNP skip on the key that the VALUE of Vx names; above 15 they fault and do not skip (44_input_timer.md section 2; the
fault is the spec's decision D15, log 7). -/
def Obligations.KeySkipsReadTheLatch : Prop :=
  ∀ (x : Reg) (s : State),
    (∀ _ : (s.getV x).toNat < 16,
      Skips (.skp x) s (s.inputs.keys[(s.getV x).toNat] = true) ∧
      Skips (.sknp x) s (s.inputs.keys[(s.getV x).toNat] = false)) ∧
    (16 ≤ (s.getV x).toNat →
      Raises (.skp x) s (.keyIndex (s.getV x).toNat) ∧ Raises (.sknp x) s (.keyIndex (s.getV x).toNat))

/-- LD Vx, DT copies the timer as this cycle's tick left it: from the state before the cycle, Vx ends one below the timer,
saturating at 0, and the timer is not changed by the read (44_input_timer.md section 3). -/
def Obligations.TimerReadIsAfterTheTick : Prop :=
  ∀ (x : Reg) (s : State),
    WritesReg (.ldVxDT x) s x s.dt ∧
    (Fetches s (.ldVxDT x) → ∃ t, cycle s = .next t ∧ (t.getV x).toNat = s.dt.toNat - 1 ∧ t.dt.toNat = s.dt.toNat - 1)

/-- LD DT, Vx sets the timer, whatever the tick left, and changes nothing else (R185). -/
def Obligations.TimerWriteReplacesTheTick : Prop :=
  (∀ w, fieldOp w = 0xF#4 → fieldKK w = 0x15#8 → decodeWord w = some (.ldDTVx (fieldX w))) ∧
  ∀ (x : Reg) (s : State), ∃ t, exec (.ldDTVx x) s = .next t ∧ t.dt = s.getV x ∧ SameExcept [.dt] s t

/-- LD Vx, K with a key event presented writes the key's number, whatever the key latch shows (44_input_timer.md section 3, the
spec's decision D20; log 4, log 5). -/
def Obligations.KeyEventIsLoaded : Prop :=
  ∀ (x : Reg) (k : Fin 16) (s : State), s.inputs.keyEvent = some k → WritesReg (.ldVxK x) s x (BitVec.ofNat 8 k.val)

/-! ## Whole-machine rules -/

/-- Every instruction answers a next state, `Fx0A` without a key event alone excepted: nothing is refused and no ordinary data
stops an operation (30_encoding.md section 3; the wait is log 5). -/
def Obligations.EveryOperationHasAResult : Prop :=
  ∀ (i : Instr) (s : State),
    (∃ t, exec i s = .next t) ∨
    ((∃ x, i = .ldVxK x) ∧ s.inputs.keyEvent = none ∧ exec i s = .fault .awaitingKey)

/-- The access matrix: an instruction in range changes no part of the state, no V register and no byte of memory beyond those its
row of R23 marks written: the bytes are the run of `storedLength` bytes at I, three for LD B, x + 1 for LD [I], Vx, none for the
others; VF in particular changes only by the flag writers or where the instruction names it (R12, R23). -/
def Obligations.AccessMatrixIsRespected : Prop :=
  ∀ (i : Instr) (s t : State), OperandsInRange s i → exec i s = .next t →
    SameExcept (writtenParts i) s t ∧ (∀ r, mayWriteV i r = false → t.getV r = s.getV r) ∧
    MemSameOutside s.base (storedLength i) s t

/-- An operation faults exactly when its operands are out of range, then with the fault of the table of R200 and with nothing else
written; in range it leaves RUN alone (60_exceptions.md sections 1 and 2, 70_reset_and_hazards.md section 5; the spec's decisions
D7, D13, D15, D22; log 3). -/
def Obligations.FaultsAreExactlyTheListed : Prop :=
  ∀ (i : Instr) (s : State),
    (¬ OperandsInRange s i → ∃ k, operandFault s i = some k ∧ Raises i s k) ∧
    (OperandsInRange s i → ∀ t, exec i s = .next t → t.run = s.run)

/-- The host's signals reach a program only through RND, SKP, SKNP and LD Vx, K: for every other instruction two states that
differ in nothing but the host's side give results that differ in nothing else (10_state.md sections 5 and 7). -/
def Obligations.HostReachesOnlyFourInstructions : Prop :=
  ∀ (i : Instr) (s t : State) (inp : HostInputs) (pend : List HostInputs) (n : Nat), readsHost i = false →
    exec i s = .next t →
    exec i { s with inputs := inp, pending := pend, turn := n } =
      .next { t with inputs := inp, pending := pend, turn := n }

/-- A jump to itself keeps taking cycles: only the timer moves, toward 0, until the host closes the run
(70_reset_and_hazards.md section 5; EndOfRun is the suggested END_OF_RUN, the spec's decision D19, with the model's own premise that RUN is
RUNNING, log 14). -/
def Obligations.JumpToSelfIsStable : Prop :=
  ∀ s : State, EndOfRun s →
    ∃ t, step s = .next t ∧ SameExcept [.dt, .run, .host] s t ∧ t.dt.toNat = s.dt.toNat - 1 ∧
      t.run = (if s.nextInputs.closeReq = true then .halted else .running) ∧ (t.run = .running → EndOfRun t)

/-! ## Reset and the invariant -/

/-- The state after reset: pc at 0x200, RUN = RUNNING, an empty stack, zero registers and timer, a dark framebuffer, and memory
that reads as the default font and zeros (10_state.md section 9; the zeros are the spec's decisions D3 and D4, log 2; the font's
bytes are PRESUMED, log 1). -/
def Obligations.ResetValues : Prop :=
  State.reset.pc = 0x0200 ∧ State.reset.run = .running ∧ State.reset.sp.val = 0 ∧ State.reset.i = 0 ∧
  State.reset.dt = 0 ∧ (∀ r, State.reset.getV r = 0) ∧ (∀ j : Fin 16, State.reset.stack[j.val] = 0) ∧
  (∀ x y, State.reset.fbPixel x y = false) ∧
  (∀ a, Memory.read State.reset.mem a = (Config.font[a]?).getD 0)

/-- Construction puts the font at 0 and the image, unmodified, at 0x200, and zeros everywhere else; the other state is as at
reset; an image above 3584 bytes builds no machine (20_memory.md section 4; the zeros between and the refusal are the spec's
decisions D4 and D17; log 2, log 11). -/
def Obligations.ConstructionPlacesFontAndImage : Prop :=
  ∀ font program : List Byte, font.length = 80 →
    (program.length ≤ 3584 → ∃ s, State.construct font program = some s ∧
      (∀ k : Nat, ∀ _ : k < font.length, Memory.read s.mem k = font[k]) ∧
      (∀ k : Nat, ∀ _ : k < program.length, Memory.read s.mem (0x200 + k) = program[k]) ∧
      (∀ a, 80 ≤ a → a < 0x200 ∨ 0x200 + program.length ≤ a → Memory.read s.mem a = 0) ∧
      SameExcept [.mem] State.reset s) ∧
    (3584 < program.length → State.construct font program = none)

/-- The invariant holds of the machine after reset (10_state.md R15; the canonical form of memory is the model's). -/
def Obligations.ResetMeetsTheInvariant : Prop := Inv State.reset

/-- Every step keeps the invariant: memory stays canonical, pc at most 0x10FE, stack entries at most 0x1000 (10_state.md R15; the
canonical form of memory is the model's). -/
def Obligations.StepKeepsTheInvariant : Prop :=
  ∀ s t : State, Inv s → step s = .next t → Inv t

/-- Every state a constructed machine reaches meets the invariant, whatever the image, the font and the host do, in the first
cycle as in every later one (10_state.md R15; the canonical form of memory is the model's). -/
def Obligations.ReachableStatesMeetTheInvariant : Prop :=
  ∀ (font program : List Byte) (s : State), State.construct font program = some s →
    ∀ (inp : HostInputs) (pend : List HostInputs) (n : Nat) (t : State),
      Sys2Proof.core.run n { s with inputs := inp, pending := pend } = .next t → Inv t
end

