-- ==== Sys2Proof/Laws/Memory.lean ====
section
/-! SUPPORT. The laws of memory: reading what was written, and the canonical form kept by every operation. -/

namespace Sys2Proof.Machine

/-! ## The canonical form -/

theorem Memory.wfFrom_mono {lo lo' : Nat} {m : Memory} (h : lo' ≤ lo) (hm : Memory.wfFrom lo m = true) :
    Memory.wfFrom lo' m = true := by
  cases m with
  | nil => rfl
  | cons c rest =>
    obtain ⟨a, u⟩ := c
    simp only [Memory.wfFrom, Bool.and_eq_true, decide_eq_true_eq] at hm ⊢
    exact ⟨⟨⟨by omega, hm.1.1.2⟩, hm.1.2⟩, hm.2⟩

/-- Below the first listed address a memory reads as if it listed nothing. -/
theorem Memory.read_of_lt {m : Memory} {lo a : Nat} (hm : Memory.wfFrom lo m = true) (h : a < lo) :
    Memory.read m a = resetByte a := by
  induction m generalizing lo with
  | nil => rfl
  | cons c rest ih =>
    obtain ⟨b, u⟩ := c
    simp only [Memory.wfFrom, Bool.and_eq_true, decide_eq_true_eq] at hm
    rw [Memory.read, if_neg (by omega)]
    exact ih hm.2 (by omega)

theorem Memory.wfFrom_write {m : Memory} {lo a : Nat} (u : Byte) (hm : Memory.wfFrom lo m = true) (hlo : lo ≤ a)
    (ha : a < Config.memSize) : Memory.wfFrom lo (Memory.write m a u) = true := by
  induction m generalizing lo with
  | nil =>
    by_cases hu : u = resetByte a
    · simp [Memory.write, hu, Memory.wfFrom]
    · simp [Memory.write, hu, Memory.wfFrom, hlo, ha]
  | cons c rest ih =>
    obtain ⟨b, w⟩ := c
    have hm' := hm
    simp only [Memory.wfFrom, Bool.and_eq_true, decide_eq_true_eq] at hm
    obtain ⟨⟨⟨h1, h2⟩, h3⟩, h4⟩ := hm
    rw [Memory.write]
    by_cases hab : a < b
    · rw [if_pos hab]
      by_cases hu : u = resetByte a
      · rw [if_pos hu]; exact hm'
      · rw [if_neg hu]
        simp only [Memory.wfFrom, Bool.and_eq_true, decide_eq_true_eq]
        exact ⟨⟨⟨hlo, ha⟩, hu⟩, ⟨⟨by omega, h2⟩, h3⟩, h4⟩
    · rw [if_neg hab]
      by_cases he : a = b
      · rw [if_pos he]
        by_cases hu : u = resetByte a
        · rw [if_pos hu]; exact Memory.wfFrom_mono (by omega) h4
        · rw [if_neg hu]
          simp only [Memory.wfFrom, Bool.and_eq_true, decide_eq_true_eq]
          exact ⟨⟨⟨hlo, ha⟩, hu⟩, he ▸ h4⟩
      · rw [if_neg he]
        simp only [Memory.wfFrom, Bool.and_eq_true, decide_eq_true_eq]
        exact ⟨⟨⟨h1, h2⟩, h3⟩, ih h4 (by omega)⟩

/-- A write in the address space keeps the canonical form. -/
theorem Memory.wf_write {m : Memory} {a : Nat} (u : Byte) (hm : Memory.wf m = true) (ha : a < Config.memSize) :
    Memory.wf (Memory.write m a u) = true :=
  Memory.wfFrom_write u hm (Nat.zero_le a) ha

/-- A store of a run of bytes in the address space keeps the canonical form. -/
theorem Memory.wf_writeBytes {m : Memory} {a : Nat} (bs : List Byte) (hm : Memory.wf m = true)
    (ha : a + bs.length ≤ Config.memSize) : Memory.wf (Memory.writeBytes m a bs) = true := by
  induction bs generalizing m a with
  | nil => exact hm
  | cons b bs ih =>
    rw [List.length_cons] at ha
    exact ih (Memory.wf_write b hm (by omega)) (by omega)

/-! ## Reading what was written -/

theorem Memory.read_writeFrom {m : Memory} {lo : Nat} (hm : Memory.wfFrom lo m = true) (a c : Nat) (u : Byte) :
    Memory.read (Memory.write m a u) c = if c = a then u else Memory.read m c := by
  induction m generalizing lo with
  | nil =>
    by_cases hu : u = resetByte a
    · by_cases hc : c = a <;> simp [Memory.write, hu, Memory.read, hc]
    · simp [Memory.write, hu, Memory.read]
  | cons p rest ih =>
    obtain ⟨b, w⟩ := p
    simp only [Memory.wfFrom, Bool.and_eq_true, decide_eq_true_eq] at hm
    have hrest : ∀ d, d ≤ b → Memory.read rest d = resetByte d := fun d hd => Memory.read_of_lt hm.2 (by omega)
    rw [Memory.write]
    by_cases hab : a < b
    · rw [if_pos hab]
      by_cases hu : u = resetByte a
      · rw [if_pos hu]
        by_cases hc : c = a
        · rw [if_pos hc, Memory.read, if_neg (by omega), hc, hrest a (by omega), hu]
        · rw [if_neg hc]
      · rw [if_neg hu, Memory.read]
    · rw [if_neg hab]
      by_cases he : a = b
      · rw [if_pos he]
        by_cases hu : u = resetByte a
        · rw [if_pos hu]
          by_cases hc : c = a
          · rw [if_pos hc, hc, hrest a (by omega), hu]
          · rw [if_neg hc, Memory.read, if_neg (by omega)]
        · rw [if_neg hu, Memory.read]
          by_cases hc : c = a
          · rw [if_pos hc, if_pos hc]
          · rw [if_neg hc, if_neg hc, Memory.read, if_neg (by omega)]
      · rw [if_neg he, Memory.read, ih hm.2, Memory.read]
        by_cases hcb : c = b
        · rw [if_pos hcb, if_pos hcb, if_neg (by omega)]
        · rw [if_neg hcb, if_neg hcb]

/-- A read after a write: the value written at its address, what was there before anywhere else (R42, R50). -/
theorem Memory.read_write {m : Memory} (hm : Memory.wf m = true) (a c : Nat) (u : Byte) :
    Memory.read (Memory.write m a u) c = if c = a then u else Memory.read m c :=
  Memory.read_writeFrom hm a c u

/-- Reading after a run of bytes was stored: the byte of the run at its address, what was there before anywhere else. -/
theorem Memory.read_writeBytes {m : Memory} (hm : Memory.wf m = true) (a c : Nat) (bs : List Byte)
    (ha : a + bs.length ≤ Config.memSize) :
    Memory.read (Memory.writeBytes m a bs) c =
      if h : a ≤ c ∧ c - a < bs.length then bs[c - a]'h.2 else Memory.read m c := by
  induction bs generalizing m a with
  | nil => simp [Memory.writeBytes]
  | cons b bs ih =>
    rw [List.length_cons] at ha
    rw [Memory.writeBytes, ih (Memory.wf_write b hm (by omega)) (a + 1) (by omega), Memory.read_write hm]
    by_cases h1 : c = a
    · subst h1
      simp
    · by_cases h2 : a + 1 ≤ c ∧ c - (a + 1) < bs.length
      · have h3 : a ≤ c ∧ c - a < (b :: bs).length := by
          rw [List.length_cons]
          omega
        rw [dif_pos h2, dif_pos h3]
        have h4 : c - a = (c - (a + 1)) + 1 := by omega
        simp [h4]
      · have h3 : ¬ (a ≤ c ∧ c - a < (b :: bs).length) := by
          rw [List.length_cons]
          omega
        rw [dif_neg h2, dif_neg h3, if_neg h1]

/-- A write leaves every other address alone, whatever the form of the memory (R42, R50). -/
theorem Memory.read_write_ne (m : Memory) {a c : Nat} (u : Byte) (h : c ≠ a) :
    Memory.read (Memory.write m a u) c = Memory.read m c := by
  induction m with
  | nil =>
    rw [Memory.write]
    split <;> simp [Memory.read, h]
  | cons p rest ih =>
    obtain ⟨b, w⟩ := p
    rw [Memory.write]
    split
    · split <;> simp [Memory.read, h]
    · split
      next he =>
        subst he
        split <;> simp [Memory.read, h]
      next => simp [Memory.read, ih]

/-- A run of bytes stored leaves every address outside the run alone, whatever the form of the memory. -/
theorem Memory.read_writeBytes_outside (m : Memory) {a c : Nat} (bs : List Byte) (h : c < a ∨ a + bs.length ≤ c) :
    Memory.read (Memory.writeBytes m a bs) c = Memory.read m c := by
  induction bs generalizing m a with
  | nil => rfl
  | cons b bs ih =>
    rw [List.length_cons] at h
    rw [Memory.writeBytes, ih _ (by omega), Memory.read_write_ne m b (by omega)]

@[simp] theorem Memory.length_readBytes (m : Memory) (a len : Nat) : (Memory.readBytes m a len).length = len := by
  induction len generalizing a with
  | zero => rfl
  | succ len ih => simp [Memory.readBytes, ih]

/-- Byte `k` of a run read at `a` is the byte at `a + k`. -/
theorem Memory.getElem_readBytes (m : Memory) (a len k : Nat) (h : k < (Memory.readBytes m a len).length) :
    (Memory.readBytes m a len)[k] = Memory.read m (a + k) := by
  induction len generalizing a k with
  | zero => simp [Memory.readBytes] at h
  | succ len ih =>
    cases k with
    | zero => simp [Memory.readBytes]
    | succ k =>
      simp only [Memory.readBytes, List.getElem_cons_succ]
      rw [ih]
      congr 1
      omega

/-- The reset memory is in canonical form. -/
theorem Memory.wf_nil : Memory.wf [] = true := rfl

end Sys2Proof.Machine
end

