-- ==== Sys2Proof/Laws/State.lean ====
section
/-! SUPPORT. One lemma per field per update of the state, true by rfl. -/

namespace Sys2Proof.Machine

/-! ## `setV` -/

@[simp] theorem State.setV_v (s : State) (r : Reg) (b : Byte) : (s.setV r b).v = s.v.set r.val b := rfl
@[simp] theorem State.setV_pc (s : State) (r : Reg) (b : Byte) : (s.setV r b).pc = s.pc := rfl
@[simp] theorem State.setV_i (s : State) (r : Reg) (b : Byte) : (s.setV r b).i = s.i := rfl
@[simp] theorem State.setV_dt (s : State) (r : Reg) (b : Byte) : (s.setV r b).dt = s.dt := rfl
@[simp] theorem State.setV_sp (s : State) (r : Reg) (b : Byte) : (s.setV r b).sp = s.sp := rfl
@[simp] theorem State.setV_stack (s : State) (r : Reg) (b : Byte) : (s.setV r b).stack = s.stack := rfl
@[simp] theorem State.setV_mem (s : State) (r : Reg) (b : Byte) : (s.setV r b).mem = s.mem := rfl
@[simp] theorem State.setV_fb (s : State) (r : Reg) (b : Byte) : (s.setV r b).fb = s.fb := rfl
@[simp] theorem State.setV_run (s : State) (r : Reg) (b : Byte) : (s.setV r b).run = s.run := rfl
@[simp] theorem State.setV_fbUpdates (s : State) (r : Reg) (b : Byte) : (s.setV r b).fbUpdates = s.fbUpdates := rfl
@[simp] theorem State.setV_inputs (s : State) (r : Reg) (b : Byte) : (s.setV r b).inputs = s.inputs := rfl
@[simp] theorem State.setV_pending (s : State) (r : Reg) (b : Byte) : (s.setV r b).pending = s.pending := rfl
@[simp] theorem State.setV_turn (s : State) (r : Reg) (b : Byte) : (s.setV r b).turn = s.turn := rfl

/-! ## `setFlag` -/

@[simp] theorem State.setFlag_pc (s : State) (b : Byte) : (s.setFlag b).pc = s.pc := rfl
@[simp] theorem State.setFlag_i (s : State) (b : Byte) : (s.setFlag b).i = s.i := rfl
@[simp] theorem State.setFlag_dt (s : State) (b : Byte) : (s.setFlag b).dt = s.dt := rfl
@[simp] theorem State.setFlag_sp (s : State) (b : Byte) : (s.setFlag b).sp = s.sp := rfl
@[simp] theorem State.setFlag_stack (s : State) (b : Byte) : (s.setFlag b).stack = s.stack := rfl
@[simp] theorem State.setFlag_mem (s : State) (b : Byte) : (s.setFlag b).mem = s.mem := rfl
@[simp] theorem State.setFlag_fb (s : State) (b : Byte) : (s.setFlag b).fb = s.fb := rfl
@[simp] theorem State.setFlag_run (s : State) (b : Byte) : (s.setFlag b).run = s.run := rfl
@[simp] theorem State.setFlag_fbUpdates (s : State) (b : Byte) : (s.setFlag b).fbUpdates = s.fbUpdates := rfl
@[simp] theorem State.setFlag_inputs (s : State) (b : Byte) : (s.setFlag b).inputs = s.inputs := rfl
@[simp] theorem State.setFlag_pending (s : State) (b : Byte) : (s.setFlag b).pending = s.pending := rfl
@[simp] theorem State.setFlag_turn (s : State) (b : Byte) : (s.setFlag b).turn = s.turn := rfl

/-! ## `setFlagThenV` -/

@[simp] theorem State.setFlagThenV_pc (s : State) (f : Byte) (x : Reg) (b : Byte) : (s.setFlagThenV f x b).pc = s.pc := rfl
@[simp] theorem State.setFlagThenV_i (s : State) (f : Byte) (x : Reg) (b : Byte) : (s.setFlagThenV f x b).i = s.i := rfl
@[simp] theorem State.setFlagThenV_dt (s : State) (f : Byte) (x : Reg) (b : Byte) : (s.setFlagThenV f x b).dt = s.dt := rfl
@[simp] theorem State.setFlagThenV_sp (s : State) (f : Byte) (x : Reg) (b : Byte) : (s.setFlagThenV f x b).sp = s.sp := rfl
@[simp] theorem State.setFlagThenV_stack (s : State) (f : Byte) (x : Reg) (b : Byte) : (s.setFlagThenV f x b).stack = s.stack := rfl
@[simp] theorem State.setFlagThenV_mem (s : State) (f : Byte) (x : Reg) (b : Byte) : (s.setFlagThenV f x b).mem = s.mem := rfl
@[simp] theorem State.setFlagThenV_fb (s : State) (f : Byte) (x : Reg) (b : Byte) : (s.setFlagThenV f x b).fb = s.fb := rfl
@[simp] theorem State.setFlagThenV_run (s : State) (f : Byte) (x : Reg) (b : Byte) : (s.setFlagThenV f x b).run = s.run := rfl
@[simp] theorem State.setFlagThenV_fbUpdates (s : State) (f : Byte) (x : Reg) (b : Byte) : (s.setFlagThenV f x b).fbUpdates = s.fbUpdates := rfl
@[simp] theorem State.setFlagThenV_inputs (s : State) (f : Byte) (x : Reg) (b : Byte) : (s.setFlagThenV f x b).inputs = s.inputs := rfl
@[simp] theorem State.setFlagThenV_pending (s : State) (f : Byte) (x : Reg) (b : Byte) : (s.setFlagThenV f x b).pending = s.pending := rfl
@[simp] theorem State.setFlagThenV_turn (s : State) (f : Byte) (x : Reg) (b : Byte) : (s.setFlagThenV f x b).turn = s.turn := rfl

/-! ## `loadRegRun` -/

@[simp] theorem State.loadRegRun_v (s : State) (bs : List Byte) : (s.loadRegRun bs).v = writeRegs s.v 0 bs := rfl
@[simp] theorem State.loadRegRun_pc (s : State) (bs : List Byte) : (s.loadRegRun bs).pc = s.pc := rfl
@[simp] theorem State.loadRegRun_i (s : State) (bs : List Byte) : (s.loadRegRun bs).i = s.i := rfl
@[simp] theorem State.loadRegRun_dt (s : State) (bs : List Byte) : (s.loadRegRun bs).dt = s.dt := rfl
@[simp] theorem State.loadRegRun_sp (s : State) (bs : List Byte) : (s.loadRegRun bs).sp = s.sp := rfl
@[simp] theorem State.loadRegRun_stack (s : State) (bs : List Byte) : (s.loadRegRun bs).stack = s.stack := rfl
@[simp] theorem State.loadRegRun_mem (s : State) (bs : List Byte) : (s.loadRegRun bs).mem = s.mem := rfl
@[simp] theorem State.loadRegRun_fb (s : State) (bs : List Byte) : (s.loadRegRun bs).fb = s.fb := rfl
@[simp] theorem State.loadRegRun_run (s : State) (bs : List Byte) : (s.loadRegRun bs).run = s.run := rfl
@[simp] theorem State.loadRegRun_fbUpdates (s : State) (bs : List Byte) : (s.loadRegRun bs).fbUpdates = s.fbUpdates := rfl
@[simp] theorem State.loadRegRun_inputs (s : State) (bs : List Byte) : (s.loadRegRun bs).inputs = s.inputs := rfl
@[simp] theorem State.loadRegRun_pending (s : State) (bs : List Byte) : (s.loadRegRun bs).pending = s.pending := rfl
@[simp] theorem State.loadRegRun_turn (s : State) (bs : List Byte) : (s.loadRegRun bs).turn = s.turn := rfl

/-! ## `setPc` -/

@[simp] theorem State.setPc_pc (s : State) (a : Word) : (s.setPc a).pc = a := rfl
@[simp] theorem State.setPc_v (s : State) (a : Word) : (s.setPc a).v = s.v := rfl
@[simp] theorem State.setPc_i (s : State) (a : Word) : (s.setPc a).i = s.i := rfl
@[simp] theorem State.setPc_dt (s : State) (a : Word) : (s.setPc a).dt = s.dt := rfl
@[simp] theorem State.setPc_sp (s : State) (a : Word) : (s.setPc a).sp = s.sp := rfl
@[simp] theorem State.setPc_stack (s : State) (a : Word) : (s.setPc a).stack = s.stack := rfl
@[simp] theorem State.setPc_mem (s : State) (a : Word) : (s.setPc a).mem = s.mem := rfl
@[simp] theorem State.setPc_fb (s : State) (a : Word) : (s.setPc a).fb = s.fb := rfl
@[simp] theorem State.setPc_run (s : State) (a : Word) : (s.setPc a).run = s.run := rfl
@[simp] theorem State.setPc_fbUpdates (s : State) (a : Word) : (s.setPc a).fbUpdates = s.fbUpdates := rfl
@[simp] theorem State.setPc_inputs (s : State) (a : Word) : (s.setPc a).inputs = s.inputs := rfl
@[simp] theorem State.setPc_pending (s : State) (a : Word) : (s.setPc a).pending = s.pending := rfl
@[simp] theorem State.setPc_turn (s : State) (a : Word) : (s.setPc a).turn = s.turn := rfl
@[simp] theorem State.setPc_getV (s : State) (a : Word) (q : Reg) : (s.setPc a).getV q = s.getV q := rfl

/-! ## `setI` -/

@[simp] theorem State.setI_i (s : State) (a : Word) : (s.setI a).i = a := rfl
@[simp] theorem State.setI_v (s : State) (a : Word) : (s.setI a).v = s.v := rfl
@[simp] theorem State.setI_pc (s : State) (a : Word) : (s.setI a).pc = s.pc := rfl
@[simp] theorem State.setI_dt (s : State) (a : Word) : (s.setI a).dt = s.dt := rfl
@[simp] theorem State.setI_sp (s : State) (a : Word) : (s.setI a).sp = s.sp := rfl
@[simp] theorem State.setI_stack (s : State) (a : Word) : (s.setI a).stack = s.stack := rfl
@[simp] theorem State.setI_mem (s : State) (a : Word) : (s.setI a).mem = s.mem := rfl
@[simp] theorem State.setI_fb (s : State) (a : Word) : (s.setI a).fb = s.fb := rfl
@[simp] theorem State.setI_run (s : State) (a : Word) : (s.setI a).run = s.run := rfl
@[simp] theorem State.setI_fbUpdates (s : State) (a : Word) : (s.setI a).fbUpdates = s.fbUpdates := rfl
@[simp] theorem State.setI_inputs (s : State) (a : Word) : (s.setI a).inputs = s.inputs := rfl
@[simp] theorem State.setI_pending (s : State) (a : Word) : (s.setI a).pending = s.pending := rfl
@[simp] theorem State.setI_turn (s : State) (a : Word) : (s.setI a).turn = s.turn := rfl
@[simp] theorem State.setI_getV (s : State) (a : Word) (q : Reg) : (s.setI a).getV q = s.getV q := rfl

/-! ## `setDT` -/

@[simp] theorem State.setDT_dt (s : State) (b : Byte) : (s.setDT b).dt = b := rfl
@[simp] theorem State.setDT_v (s : State) (b : Byte) : (s.setDT b).v = s.v := rfl
@[simp] theorem State.setDT_pc (s : State) (b : Byte) : (s.setDT b).pc = s.pc := rfl
@[simp] theorem State.setDT_i (s : State) (b : Byte) : (s.setDT b).i = s.i := rfl
@[simp] theorem State.setDT_sp (s : State) (b : Byte) : (s.setDT b).sp = s.sp := rfl
@[simp] theorem State.setDT_stack (s : State) (b : Byte) : (s.setDT b).stack = s.stack := rfl
@[simp] theorem State.setDT_mem (s : State) (b : Byte) : (s.setDT b).mem = s.mem := rfl
@[simp] theorem State.setDT_fb (s : State) (b : Byte) : (s.setDT b).fb = s.fb := rfl
@[simp] theorem State.setDT_run (s : State) (b : Byte) : (s.setDT b).run = s.run := rfl
@[simp] theorem State.setDT_fbUpdates (s : State) (b : Byte) : (s.setDT b).fbUpdates = s.fbUpdates := rfl
@[simp] theorem State.setDT_inputs (s : State) (b : Byte) : (s.setDT b).inputs = s.inputs := rfl
@[simp] theorem State.setDT_pending (s : State) (b : Byte) : (s.setDT b).pending = s.pending := rfl
@[simp] theorem State.setDT_turn (s : State) (b : Byte) : (s.setDT b).turn = s.turn := rfl
@[simp] theorem State.setDT_getV (s : State) (b : Byte) (q : Reg) : (s.setDT b).getV q = s.getV q := rfl

/-! ## `setMem` -/

@[simp] theorem State.setMem_mem (s : State) (m : Memory) : (s.setMem m).mem = m := rfl
@[simp] theorem State.setMem_v (s : State) (m : Memory) : (s.setMem m).v = s.v := rfl
@[simp] theorem State.setMem_pc (s : State) (m : Memory) : (s.setMem m).pc = s.pc := rfl
@[simp] theorem State.setMem_i (s : State) (m : Memory) : (s.setMem m).i = s.i := rfl
@[simp] theorem State.setMem_dt (s : State) (m : Memory) : (s.setMem m).dt = s.dt := rfl
@[simp] theorem State.setMem_sp (s : State) (m : Memory) : (s.setMem m).sp = s.sp := rfl
@[simp] theorem State.setMem_stack (s : State) (m : Memory) : (s.setMem m).stack = s.stack := rfl
@[simp] theorem State.setMem_fb (s : State) (m : Memory) : (s.setMem m).fb = s.fb := rfl
@[simp] theorem State.setMem_run (s : State) (m : Memory) : (s.setMem m).run = s.run := rfl
@[simp] theorem State.setMem_fbUpdates (s : State) (m : Memory) : (s.setMem m).fbUpdates = s.fbUpdates := rfl
@[simp] theorem State.setMem_inputs (s : State) (m : Memory) : (s.setMem m).inputs = s.inputs := rfl
@[simp] theorem State.setMem_pending (s : State) (m : Memory) : (s.setMem m).pending = s.pending := rfl
@[simp] theorem State.setMem_turn (s : State) (m : Memory) : (s.setMem m).turn = s.turn := rfl
@[simp] theorem State.setMem_getV (s : State) (m : Memory) (q : Reg) : (s.setMem m).getV q = s.getV q := rfl

/-! ## `setFb` -/

@[simp] theorem State.setFb_fb (s : State) (fb : FrameBuffer) : (s.setFb fb).fb = fb := rfl
@[simp] theorem State.setFb_v (s : State) (fb : FrameBuffer) : (s.setFb fb).v = s.v := rfl
@[simp] theorem State.setFb_pc (s : State) (fb : FrameBuffer) : (s.setFb fb).pc = s.pc := rfl
@[simp] theorem State.setFb_i (s : State) (fb : FrameBuffer) : (s.setFb fb).i = s.i := rfl
@[simp] theorem State.setFb_dt (s : State) (fb : FrameBuffer) : (s.setFb fb).dt = s.dt := rfl
@[simp] theorem State.setFb_sp (s : State) (fb : FrameBuffer) : (s.setFb fb).sp = s.sp := rfl
@[simp] theorem State.setFb_stack (s : State) (fb : FrameBuffer) : (s.setFb fb).stack = s.stack := rfl
@[simp] theorem State.setFb_mem (s : State) (fb : FrameBuffer) : (s.setFb fb).mem = s.mem := rfl
@[simp] theorem State.setFb_run (s : State) (fb : FrameBuffer) : (s.setFb fb).run = s.run := rfl
@[simp] theorem State.setFb_fbUpdates (s : State) (fb : FrameBuffer) : (s.setFb fb).fbUpdates = s.fbUpdates := rfl
@[simp] theorem State.setFb_inputs (s : State) (fb : FrameBuffer) : (s.setFb fb).inputs = s.inputs := rfl
@[simp] theorem State.setFb_pending (s : State) (fb : FrameBuffer) : (s.setFb fb).pending = s.pending := rfl
@[simp] theorem State.setFb_turn (s : State) (fb : FrameBuffer) : (s.setFb fb).turn = s.turn := rfl
@[simp] theorem State.setFb_getV (s : State) (fb : FrameBuffer) (q : Reg) : (s.setFb fb).getV q = s.getV q := rfl

/-! ## `setRun` -/

@[simp] theorem State.setRun_run (s : State) (r : RunStatus) : (s.setRun r).run = r := rfl
@[simp] theorem State.setRun_v (s : State) (r : RunStatus) : (s.setRun r).v = s.v := rfl
@[simp] theorem State.setRun_pc (s : State) (r : RunStatus) : (s.setRun r).pc = s.pc := rfl
@[simp] theorem State.setRun_i (s : State) (r : RunStatus) : (s.setRun r).i = s.i := rfl
@[simp] theorem State.setRun_dt (s : State) (r : RunStatus) : (s.setRun r).dt = s.dt := rfl
@[simp] theorem State.setRun_sp (s : State) (r : RunStatus) : (s.setRun r).sp = s.sp := rfl
@[simp] theorem State.setRun_stack (s : State) (r : RunStatus) : (s.setRun r).stack = s.stack := rfl
@[simp] theorem State.setRun_mem (s : State) (r : RunStatus) : (s.setRun r).mem = s.mem := rfl
@[simp] theorem State.setRun_fb (s : State) (r : RunStatus) : (s.setRun r).fb = s.fb := rfl
@[simp] theorem State.setRun_fbUpdates (s : State) (r : RunStatus) : (s.setRun r).fbUpdates = s.fbUpdates := rfl
@[simp] theorem State.setRun_inputs (s : State) (r : RunStatus) : (s.setRun r).inputs = s.inputs := rfl
@[simp] theorem State.setRun_pending (s : State) (r : RunStatus) : (s.setRun r).pending = s.pending := rfl
@[simp] theorem State.setRun_turn (s : State) (r : RunStatus) : (s.setRun r).turn = s.turn := rfl
@[simp] theorem State.setRun_getV (s : State) (r : RunStatus) (q : Reg) : (s.setRun r).getV q = s.getV q := rfl

/-! ## `raise` -/

@[simp] theorem State.raise_run (s : State) (k : FaultKind) : (s.raise k).run = .faulted k := rfl
@[simp] theorem State.raise_v (s : State) (k : FaultKind) : (s.raise k).v = s.v := rfl
@[simp] theorem State.raise_pc (s : State) (k : FaultKind) : (s.raise k).pc = s.pc := rfl
@[simp] theorem State.raise_i (s : State) (k : FaultKind) : (s.raise k).i = s.i := rfl
@[simp] theorem State.raise_dt (s : State) (k : FaultKind) : (s.raise k).dt = s.dt := rfl
@[simp] theorem State.raise_sp (s : State) (k : FaultKind) : (s.raise k).sp = s.sp := rfl
@[simp] theorem State.raise_stack (s : State) (k : FaultKind) : (s.raise k).stack = s.stack := rfl
@[simp] theorem State.raise_mem (s : State) (k : FaultKind) : (s.raise k).mem = s.mem := rfl
@[simp] theorem State.raise_fb (s : State) (k : FaultKind) : (s.raise k).fb = s.fb := rfl
@[simp] theorem State.raise_fbUpdates (s : State) (k : FaultKind) : (s.raise k).fbUpdates = s.fbUpdates := rfl
@[simp] theorem State.raise_inputs (s : State) (k : FaultKind) : (s.raise k).inputs = s.inputs := rfl
@[simp] theorem State.raise_pending (s : State) (k : FaultKind) : (s.raise k).pending = s.pending := rfl
@[simp] theorem State.raise_turn (s : State) (k : FaultKind) : (s.raise k).turn = s.turn := rfl
@[simp] theorem State.raise_getV (s : State) (k : FaultKind) (q : Reg) : (s.raise k).getV q = s.getV q := rfl

/-! ## `signalUpdate` -/

@[simp] theorem State.signalUpdate_fbUpdates (s : State) : s.signalUpdate.fbUpdates = s.fbUpdates + 1 := rfl
@[simp] theorem State.signalUpdate_v (s : State) : s.signalUpdate.v = s.v := rfl
@[simp] theorem State.signalUpdate_pc (s : State) : s.signalUpdate.pc = s.pc := rfl
@[simp] theorem State.signalUpdate_i (s : State) : s.signalUpdate.i = s.i := rfl
@[simp] theorem State.signalUpdate_dt (s : State) : s.signalUpdate.dt = s.dt := rfl
@[simp] theorem State.signalUpdate_sp (s : State) : s.signalUpdate.sp = s.sp := rfl
@[simp] theorem State.signalUpdate_stack (s : State) : s.signalUpdate.stack = s.stack := rfl
@[simp] theorem State.signalUpdate_mem (s : State) : s.signalUpdate.mem = s.mem := rfl
@[simp] theorem State.signalUpdate_fb (s : State) : s.signalUpdate.fb = s.fb := rfl
@[simp] theorem State.signalUpdate_run (s : State) : s.signalUpdate.run = s.run := rfl
@[simp] theorem State.signalUpdate_inputs (s : State) : s.signalUpdate.inputs = s.inputs := rfl
@[simp] theorem State.signalUpdate_pending (s : State) : s.signalUpdate.pending = s.pending := rfl
@[simp] theorem State.signalUpdate_turn (s : State) : s.signalUpdate.turn = s.turn := rfl
@[simp] theorem State.signalUpdate_getV (s : State) (q : Reg) : s.signalUpdate.getV q = s.getV q := rfl

/-! ## `tick` -/

@[simp] theorem State.tick_dt (s : State) : s.tick.dt = if s.dt = 0 then 0 else s.dt - 1 := rfl
@[simp] theorem State.tick_v (s : State) : s.tick.v = s.v := rfl
@[simp] theorem State.tick_pc (s : State) : s.tick.pc = s.pc := rfl
@[simp] theorem State.tick_i (s : State) : s.tick.i = s.i := rfl
@[simp] theorem State.tick_sp (s : State) : s.tick.sp = s.sp := rfl
@[simp] theorem State.tick_stack (s : State) : s.tick.stack = s.stack := rfl
@[simp] theorem State.tick_mem (s : State) : s.tick.mem = s.mem := rfl
@[simp] theorem State.tick_fb (s : State) : s.tick.fb = s.fb := rfl
@[simp] theorem State.tick_run (s : State) : s.tick.run = s.run := rfl
@[simp] theorem State.tick_fbUpdates (s : State) : s.tick.fbUpdates = s.fbUpdates := rfl
@[simp] theorem State.tick_inputs (s : State) : s.tick.inputs = s.inputs := rfl
@[simp] theorem State.tick_pending (s : State) : s.tick.pending = s.pending := rfl
@[simp] theorem State.tick_turn (s : State) : s.tick.turn = s.turn := rfl
@[simp] theorem State.tick_getV (s : State) (q : Reg) : s.tick.getV q = s.getV q := rfl

/-! ## `advance` -/

@[simp] theorem State.advance_pc (s : State) : s.advance.pc = s.pc + 2 := rfl
@[simp] theorem State.advance_v (s : State) : s.advance.v = s.v := rfl
@[simp] theorem State.advance_i (s : State) : s.advance.i = s.i := rfl
@[simp] theorem State.advance_dt (s : State) : s.advance.dt = s.dt := rfl
@[simp] theorem State.advance_sp (s : State) : s.advance.sp = s.sp := rfl
@[simp] theorem State.advance_stack (s : State) : s.advance.stack = s.stack := rfl
@[simp] theorem State.advance_mem (s : State) : s.advance.mem = s.mem := rfl
@[simp] theorem State.advance_fb (s : State) : s.advance.fb = s.fb := rfl
@[simp] theorem State.advance_run (s : State) : s.advance.run = s.run := rfl
@[simp] theorem State.advance_fbUpdates (s : State) : s.advance.fbUpdates = s.fbUpdates := rfl
@[simp] theorem State.advance_inputs (s : State) : s.advance.inputs = s.inputs := rfl
@[simp] theorem State.advance_pending (s : State) : s.advance.pending = s.pending := rfl
@[simp] theorem State.advance_turn (s : State) : s.advance.turn = s.turn := rfl
@[simp] theorem State.advance_getV (s : State) (q : Reg) : s.advance.getV q = s.getV q := rfl

/-! ## `refresh` -/

@[simp] theorem State.refresh_inputs (s : State) : s.refresh.inputs = s.nextInputs := rfl
@[simp] theorem State.refresh_pending (s : State) : s.refresh.pending = s.pending.tail := rfl
@[simp] theorem State.refresh_turn (s : State) : s.refresh.turn = s.turn + 1 := rfl
@[simp] theorem State.refresh_v (s : State) : s.refresh.v = s.v := rfl
@[simp] theorem State.refresh_pc (s : State) : s.refresh.pc = s.pc := rfl
@[simp] theorem State.refresh_i (s : State) : s.refresh.i = s.i := rfl
@[simp] theorem State.refresh_dt (s : State) : s.refresh.dt = s.dt := rfl
@[simp] theorem State.refresh_sp (s : State) : s.refresh.sp = s.sp := rfl
@[simp] theorem State.refresh_stack (s : State) : s.refresh.stack = s.stack := rfl
@[simp] theorem State.refresh_mem (s : State) : s.refresh.mem = s.mem := rfl
@[simp] theorem State.refresh_fb (s : State) : s.refresh.fb = s.fb := rfl
@[simp] theorem State.refresh_run (s : State) : s.refresh.run = s.run := rfl
@[simp] theorem State.refresh_fbUpdates (s : State) : s.refresh.fbUpdates = s.fbUpdates := rfl
@[simp] theorem State.refresh_getV (s : State) (q : Reg) : s.refresh.getV q = s.getV q := rfl

/-! ## `sampleClose` -/

@[simp] theorem State.sampleClose_v (s : State) : s.sampleClose.v = s.v := rfl
@[simp] theorem State.sampleClose_pc (s : State) : s.sampleClose.pc = s.pc := rfl
@[simp] theorem State.sampleClose_i (s : State) : s.sampleClose.i = s.i := rfl
@[simp] theorem State.sampleClose_dt (s : State) : s.sampleClose.dt = s.dt := rfl
@[simp] theorem State.sampleClose_sp (s : State) : s.sampleClose.sp = s.sp := rfl
@[simp] theorem State.sampleClose_stack (s : State) : s.sampleClose.stack = s.stack := rfl
@[simp] theorem State.sampleClose_mem (s : State) : s.sampleClose.mem = s.mem := rfl
@[simp] theorem State.sampleClose_fb (s : State) : s.sampleClose.fb = s.fb := rfl
@[simp] theorem State.sampleClose_fbUpdates (s : State) : s.sampleClose.fbUpdates = s.fbUpdates := rfl
@[simp] theorem State.sampleClose_inputs (s : State) : s.sampleClose.inputs = s.inputs := rfl
@[simp] theorem State.sampleClose_pending (s : State) : s.sampleClose.pending = s.pending := rfl
@[simp] theorem State.sampleClose_turn (s : State) : s.sampleClose.turn = s.turn := rfl
@[simp] theorem State.sampleClose_getV (s : State) (q : Reg) : s.sampleClose.getV q = s.getV q := rfl

/-! ## `afterCycle` -/

@[simp] theorem State.afterCycle_inputs (s : State) : s.afterCycle.inputs = s.nextInputs := rfl
@[simp] theorem State.afterCycle_pending (s : State) : s.afterCycle.pending = s.pending.tail := rfl
@[simp] theorem State.afterCycle_turn (s : State) : s.afterCycle.turn = s.turn + 1 := rfl
@[simp] theorem State.afterCycle_v (s : State) : s.afterCycle.v = s.v := rfl
@[simp] theorem State.afterCycle_pc (s : State) : s.afterCycle.pc = s.pc := rfl
@[simp] theorem State.afterCycle_i (s : State) : s.afterCycle.i = s.i := rfl
@[simp] theorem State.afterCycle_dt (s : State) : s.afterCycle.dt = s.dt := rfl
@[simp] theorem State.afterCycle_sp (s : State) : s.afterCycle.sp = s.sp := rfl
@[simp] theorem State.afterCycle_stack (s : State) : s.afterCycle.stack = s.stack := rfl
@[simp] theorem State.afterCycle_mem (s : State) : s.afterCycle.mem = s.mem := rfl
@[simp] theorem State.afterCycle_fb (s : State) : s.afterCycle.fb = s.fb := rfl
@[simp] theorem State.afterCycle_fbUpdates (s : State) : s.afterCycle.fbUpdates = s.fbUpdates := rfl
@[simp] theorem State.afterCycle_getV (s : State) (q : Reg) : s.afterCycle.getV q = s.getV q := rfl

/-! ## The registers -/

@[simp] theorem State.getV_setV_same (s : State) (r : Reg) (b : Byte) : (s.setV r b).getV r = b := by
  simp [State.getV, State.setV]

theorem State.getV_setV_ne (s : State) {r q : Reg} (b : Byte) (h : q ≠ r) : (s.setV r b).getV q = s.getV q := by
  have h' : r.val ≠ q.val := fun e => h (Fin.ext e.symm)
  simp [State.getV, State.setV, h']

theorem State.getV_setV (s : State) (r q : Reg) (b : Byte) : (s.setV r b).getV q = if q = r then b else s.getV q := by
  split
  next h => rw [h, State.getV_setV_same]
  next h => exact State.getV_setV_ne s b h

theorem State.getV_setFlag (s : State) (q : Reg) (b : Byte) : (s.setFlag b).getV q = if q = 15 then b else s.getV q :=
  State.getV_setV s 15 q b

theorem State.getV_setFlagThenV (s : State) (f : Byte) (x q : Reg) (b : Byte) :
    (s.setFlagThenV f x b).getV q = if q = x then b else if q = 15 then f else s.getV q := by
  rw [State.setFlagThenV, State.getV_setV, State.getV_setFlag]

/-- Two states with the same registers have the same register file. -/
theorem State.v_eq_of_getV (s t : State) (h : ∀ r, t.getV r = s.getV r) : t.v = s.v := by
  apply Vector.ext
  intro j hj
  exact h ⟨j, hj⟩

end Sys2Proof.Machine
end

