-- ==== Sys2Proof/Laws/Ops.lean ====
section
/-! SUPPORT. One lemma per shared operation that says once what it can do; proofs cite these and do not unfold the
operations. -/

namespace Sys2Proof.Machine

/-! ## The range check and the runs of memory (R46) -/

theorem memRange_ok {addr len : Nat} (h : len = 0 ∨ addr + len - 1 ≤ 0xFFF) : memRange addr len = .ok () := by
  rw [memRange, if_neg (by omega)]

theorem memRange_error {addr len : Nat} (h1 : 1 ≤ len) (h2 : 0xFFF < addr + len - 1) :
    memRange addr len = .error (.memOutOfBounds (max addr 0x1000)) := by
  rw [memRange, if_pos ⟨h1, h2⟩]

theorem State.readRun_ok (s : State) {addr len : Nat} (h : len = 0 ∨ addr + len - 1 ≤ 0xFFF) :
    s.readRun addr len = .ok (Memory.readBytes s.mem addr len) := by
  rw [State.readRun, memRange_ok h]

theorem State.readRun_error (s : State) {addr len : Nat} (h1 : 1 ≤ len) (h2 : 0xFFF < addr + len - 1) :
    s.readRun addr len = .error (.memOutOfBounds (max addr 0x1000)) := by
  rw [State.readRun, memRange_error h1 h2]

theorem State.writeRun_ok (s : State) {addr : Nat} {bs : List Byte} (h : bs.length = 0 ∨ addr + bs.length - 1 ≤ 0xFFF) :
    s.writeRun addr bs = .ok (s.setMem (Memory.writeBytes s.mem addr bs)) := by
  rw [State.writeRun, memRange_ok h]

theorem State.writeRun_error (s : State) {addr : Nat} {bs : List Byte} (h1 : 1 ≤ bs.length)
    (h2 : 0xFFF < addr + bs.length - 1) : s.writeRun addr bs = .error (.memOutOfBounds (max addr 0x1000)) := by
  rw [State.writeRun, memRange_error h1 h2]

/-- A run that was read: the whole range was in the address space, and the bytes are memory's. -/
theorem State.readRun_cases (s : State) (addr len : Nat) :
    ((len = 0 ∨ addr + len - 1 ≤ 0xFFF) ∧ s.readRun addr len = .ok (Memory.readBytes s.mem addr len)) ∨
    (1 ≤ len ∧ 0xFFF < addr + len - 1 ∧ s.readRun addr len = .error (.memOutOfBounds (max addr 0x1000))) := by
  by_cases h : len = 0 ∨ addr + len - 1 ≤ 0xFFF
  · exact .inl ⟨h, s.readRun_ok h⟩
  · have h1 : 1 ≤ len := by omega
    have h2 : 0xFFF < addr + len - 1 := by omega
    exact .inr ⟨h1, h2, s.readRun_error h1 h2⟩

/-- A run that was stored: the whole range was in the address space, and only memory changed. -/
theorem State.writeRun_cases (s : State) (addr : Nat) (bs : List Byte) :
    ((bs.length = 0 ∨ addr + bs.length - 1 ≤ 0xFFF) ∧
      s.writeRun addr bs = .ok (s.setMem (Memory.writeBytes s.mem addr bs))) ∨
    (1 ≤ bs.length ∧ 0xFFF < addr + bs.length - 1 ∧
      s.writeRun addr bs = .error (.memOutOfBounds (max addr 0x1000))) := by
  by_cases h : bs.length = 0 ∨ addr + bs.length - 1 ≤ 0xFFF
  · exact .inl ⟨h, s.writeRun_ok h⟩
  · have h1 : 1 ≤ bs.length := by omega
    have h2 : 0xFFF < addr + bs.length - 1 := by omega
    exact .inr ⟨h1, h2, s.writeRun_error h1 h2⟩

/-! ## The fetch (R43) -/

theorem State.fetch_ok (s : State) (h : s.pc.toNat ≤ 0xFFE) :
    s.fetch = .ok (bigEndian (Memory.read s.mem s.pc.toNat) (Memory.read s.mem (s.pc.toNat + 1))) := by
  rw [State.fetch, memRange_ok (by omega)]

theorem State.fetch_error (s : State) (h : 0xFFF ≤ s.pc.toNat) :
    s.fetch = .error (.memOutOfBounds (max s.pc.toNat 0x1000)) := by
  rw [State.fetch, memRange_error (by omega) (by omega)]

@[simp] theorem State.fetch_tick (s : State) : s.tick.fetch = s.fetch := rfl

/-! ## The call stack (R18, R19, R101, R103) -/

theorem State.push_ok (s : State) (a : Word) (h : s.sp.val < 16) :
    s.push a = .ok { s with stack := s.stack.set s.sp.val a, sp := ⟨s.sp.val + 1, by omega⟩ } := by
  rw [State.push, dif_pos h]

theorem State.push_full (s : State) (a : Word) (h : s.sp.val = 16) : s.push a = .error (.stackOutOfBounds 16) := by
  rw [State.push, dif_neg (by omega), h]

theorem State.pop_ok (s : State) (h : 0 < s.sp.val) :
    s.pop = .ok (s.stack[s.sp.val - 1], { s with sp := ⟨s.sp.val - 1, by omega⟩ }) := by
  rw [State.pop, dif_pos h]

theorem State.pop_empty (s : State) (h : s.sp.val = 0) : s.pop = .error (.stackOutOfBounds 0) := by
  rw [State.pop, dif_neg (by omega), h]

/-! ## Going on or taking the fault (R206, R207) -/

@[simp] theorem State.orRaise_ok {α : Type} (s : State) (a : α) (f : α → State) : s.orRaise (.ok a) f = .next (f a) := rfl

@[simp] theorem State.orRaise_error {α : Type} (s : State) (k : FaultKind) (f : α → State) :
    s.orRaise (.error k) f = .next (s.raise k) := rfl

/-! ## Keys and skips -/

theorem State.keyDown_ok (s : State) (vx : Byte) (h : vx.toNat < 16) :
    s.keyDown vx = .ok s.inputs.keys[vx.toNat] := by
  rw [State.keyDown, dif_pos h]

theorem State.keyDown_error (s : State) (vx : Byte) (h : 16 ≤ vx.toNat) : s.keyDown vx = .error (.keyIndex vx.toNat) := by
  rw [State.keyDown, dif_neg (by omega)]

@[simp] theorem State.skipIf_true (s : State) : s.skipIf true = s.setPc (s.pc + 2) := rfl
@[simp] theorem State.skipIf_false (s : State) : s.skipIf false = s := rfl

/-- A skip changes pc alone. -/
theorem State.skipIf_eq (s : State) (c : Bool) : s.skipIf c = s.setPc (if c then s.pc + 2 else s.pc) := by
  cases c <;> rfl

/-! ## Runs of registers (R145, R146) -/

@[simp] theorem State.length_regRun (s : State) (x : Reg) : (s.regRun x).length = x.val + 1 := by
  have := x.isLt
  simp [State.regRun]

/-- Byte `k` of the run `V[0..x]` is `V[k]`. -/
theorem State.getElem_regRun (s : State) (x : Reg) (k : Nat) (h : k < (s.regRun x).length) :
    (s.regRun x)[k] = s.getV ⟨k, by have := x.isLt; rw [State.length_regRun] at h; omega⟩ := by
  simp [State.regRun, State.getV]

theorem getElem_writeRegs (v : Vector Byte 16) (k : Nat) (bs : List Byte) (j : Nat) (hj : j < 16) :
    (writeRegs v k bs)[j] = if h : k ≤ j ∧ j - k < bs.length then bs[j - k]'h.2 else v[j] := by
  induction bs generalizing v k with
  | nil => simp [writeRegs]
  | cons b bs ih =>
    rw [writeRegs, ih]
    by_cases h1 : j = k
    · subst h1
      simp
    · by_cases h2 : k + 1 ≤ j ∧ j - (k + 1) < bs.length
      · have h3 : k ≤ j ∧ j - k < (b :: bs).length := by
          rw [List.length_cons]
          omega
        rw [dif_pos h2, dif_pos h3]
        have h4 : j - k = (j - (k + 1)) + 1 := by omega
        simp [h4]
      · have h3 : ¬ (k ≤ j ∧ j - k < (b :: bs).length) := by
          rw [List.length_cons]
          omega
        rw [dif_neg h2, dif_neg h3]
        have h5 : k ≠ j := fun e => h1 e.symm
        simp [h5]

/-- After `V[0] <- …, V[1] <- …`, the registers below the run's length hold its bytes; the others are as before. -/
theorem State.getV_loadRegRun (s : State) (bs : List Byte) (r : Reg) :
    (s.loadRegRun bs).getV r = if h : r.val < bs.length then bs[r.val] else s.getV r := by
  have := getElem_writeRegs s.v 0 bs r.val r.isLt
  simpa [State.getV, State.loadRegRun] using this

/-! ## The host's turn -/

theorem State.sampleClose_run (s : State) : s.sampleClose.run = (match s.run with
    | .running => if s.inputs.closeReq then .halted else .running
    | .faulted k => .faulted k
    | .halted => .halted) := rfl

theorem State.afterCycle_run_running (s : State) (h : s.run = .running) :
    s.afterCycle.run = if s.nextInputs.closeReq then .halted else .running := by
  rw [State.afterCycle, State.sampleClose_run, State.refresh_run, h]
  rfl

theorem State.afterCycle_run_faulted (s : State) {k : FaultKind} (h : s.run = .faulted k) :
    s.afterCycle.run = .faulted k := by
  rw [State.afterCycle, State.sampleClose_run]
  simp [h]

/-- What a host's turn after a cycle leaves of RUN: as it was, or HALTED from RUNNING. -/
theorem State.afterCycle_run_cases (s : State) :
    s.afterCycle.run = s.run ∨ (s.run = .running ∧ s.nextInputs.closeReq = true ∧ s.afterCycle.run = .halted) := by
  rcases h : s.run with _ | k | _
  · by_cases hc : s.nextInputs.closeReq = true
    · exact .inr ⟨rfl, hc, by rw [s.afterCycle_run_running h, if_pos hc]⟩
    · exact .inl (by rw [s.afterCycle_run_running h, if_neg hc])
  · exact .inl (s.afterCycle_run_faulted h)
  · left
    rw [State.afterCycle, State.sampleClose_run]
    simp [h]

/-! ## The step (R24, R74) -/

theorem step_stopped (s : State) {k : FaultKind} (h : s.run = .faulted k) : step s = .fault (.stopped k) := by
  rw [step, runStep, h]

theorem step_halted (s : State) (h : s.run = .halted) : step s = .fault .halted := by
  rw [step, runStep, h]

theorem step_running (s : State) (h : s.run = .running) : step s = settle s (cycle s) := by
  rw [step, runStep, h]

theorem cycle_instr (s : State) (i : Instr) (hpc : s.pc.toNat ≤ 0xFFE)
    (h : decodeWord (bigEndian (Memory.read s.mem s.pc.toNat) (Memory.read s.mem (s.pc.toNat + 1))) = some i) :
    cycle s = exec i s.tick.advance := by
  rw [cycle, State.fetch_tick, s.fetch_ok hpc]
  simp only [dispatchWord, h]

theorem cycle_unknown (s : State) (hpc : s.pc.toNat ≤ 0xFFE)
    (h : decodeWord (bigEndian (Memory.read s.mem s.pc.toNat) (Memory.read s.mem (s.pc.toNat + 1))) = none) :
    cycle s = .next s.tick.advance := by
  rw [cycle, State.fetch_tick, s.fetch_ok hpc]
  simp only [dispatchWord, h, execUnknown]

theorem cycle_fetchFault (s : State) (hpc : 0xFFF ≤ s.pc.toNat) :
    cycle s = .next (s.tick.raise (.memOutOfBounds (max s.pc.toNat 0x1000))) := by
  rw [cycle, State.fetch_tick, s.fetch_error hpc]

/-- Everything a cycle can be: a fetch fault, a no-operation, or the operation of the fetched instruction. -/
theorem cycle_cases (s : State) :
    (0xFFF ≤ s.pc.toNat ∧ cycle s = .next (s.tick.raise (.memOutOfBounds (max s.pc.toNat 0x1000)))) ∨
    (s.pc.toNat ≤ 0xFFE ∧ cycle s = .next s.tick.advance) ∨
    (∃ i, s.pc.toNat ≤ 0xFFE ∧
      decodeWord (bigEndian (Memory.read s.mem s.pc.toNat) (Memory.read s.mem (s.pc.toNat + 1))) = some i ∧
      cycle s = exec i s.tick.advance) := by
  by_cases hpc : s.pc.toNat ≤ 0xFFE
  · rcases h : decodeWord (bigEndian (Memory.read s.mem s.pc.toNat) (Memory.read s.mem (s.pc.toNat + 1))) with _ | i
    · exact .inr (.inl ⟨hpc, cycle_unknown s hpc h⟩)
    · exact .inr (.inr ⟨i, hpc, rfl, cycle_instr s i hpc h⟩)
  · exact .inl ⟨by omega, cycle_fetchFault s (by omega)⟩

/-- Everything a step that answers a next state can be: the host's turn after a completed cycle, or a wait. -/
theorem step_cases {s u : State} (h : step s = .next u) :
    s.run = .running ∧ ((∃ t, cycle s = .next t ∧ u = t.afterCycle) ∨ (cycle s = .fault .awaitingKey ∧ u = s.refresh)) := by
  rcases hr : s.run with _ | k | _
  · rw [step_running s hr] at h
    refine ⟨rfl, ?_⟩
    rcases hc : cycle s with t | r | r
    · rw [hc] at h
      exact .inl ⟨t, rfl, by simpa [settle] using h.symm⟩
    · rw [hc] at h
      cases r with
      | awaitingKey => exact .inr ⟨rfl, by simpa [settle] using h.symm⟩
      | stopped k => simp [settle] at h
      | halted => simp [settle] at h
    · rw [hc] at h
      simp [settle] at h
  · rw [step_stopped s hr] at h
    cases h
  · rw [step_halted s hr] at h
    cases h

end Sys2Proof.Machine
end

