-- ==== Sys2Proof/Laws/Claims.lean ====
section
/-! SUPPORT. How the claims' shapes follow from what `exec` answers: one lemma per shape, so that a proof gives the next state
and nothing else. -/

namespace Sys2Proof.Machine

/-- Writing one V register changes no other part. -/
theorem SameExcept.setV (s : State) (x : Reg) (b : Byte) : SameExcept [.v] s (s.setV x b) := by
  intro p hp
  cases p <;> first | exact absurd (List.mem_singleton.2 rfl) hp | exact ⟨rfl, rfl, rfl⟩ | exact ⟨rfl, fun _ => rfl⟩ | rfl

/-- Writing a flag and a V register changes no other part. -/
theorem SameExcept.setFlagThenV (s : State) (f : Byte) (x : Reg) (b : Byte) : SameExcept [.v] s (s.setFlagThenV f x b) := by
  intro p hp
  cases p <;> first | exact absurd (List.mem_singleton.2 rfl) hp | exact ⟨rfl, rfl, rfl⟩ | exact ⟨rfl, fun _ => rfl⟩ | rfl

/-- Writing pc changes no other part. -/
theorem SameExcept.setPc (s : State) (a : Word) : SameExcept [.pc] s (s.setPc a) := by
  intro p hp
  cases p <;>
    first
    | exact absurd (List.mem_singleton.2 rfl) hp
    | exact ⟨rfl, rfl, rfl⟩
    | exact ⟨rfl, fun _ => rfl⟩
    | exact fun _ => rfl
    | rfl

/-- An instruction that answers the state with one V register written. -/
theorem WritesReg.of_exec {i : Instr} {s : State} {x : Reg} {b : Byte} (h : exec i s = .next (s.setV x b)) :
    WritesReg i s x b :=
  ⟨_, h, s.getV_setV_same x b, fun _ hr => s.getV_setV_ne b fun e => hr (List.mem_singleton.2 e), SameExcept.setV s x b⟩

/-- An instruction that answers the state with the flag, then the result written. -/
theorem WritesRegAndFlag.of_exec {i : Instr} {s : State} {x : Reg} {result flag : Byte}
    (h : exec i s = .next (s.setFlagThenV flag x result)) : WritesRegAndFlag i s x result flag := by
  refine ⟨_, h, ?_, fun hx => ?_, fun r hr => ?_, SameExcept.setFlagThenV s flag x result⟩
  · rw [State.getV_setFlagThenV, if_pos rfl]
  · rw [State.getV_setFlagThenV, if_neg (Ne.symm hx), if_pos rfl]
  · have h1 : r ≠ x := fun e => hr (by simp [e])
    have h2 : r ≠ 15 := fun e => hr (by simp [e])
    rw [State.getV_setFlagThenV, if_neg h1, if_neg h2]

/-- An instruction that answers a skip on a condition. -/
theorem Skips.of_exec {i : Instr} {s : State} {c : Prop} {b : Bool} (hb : b = true ↔ c) (h : exec i s = .next (s.skipIf b)) :
    Skips i s c := by
  rw [State.skipIf_eq] at h
  refine ⟨_, h, fun hc => ?_, fun hc => ?_, SameExcept.setPc s _⟩
  · rw [State.setPc_pc, if_pos (hb.2 hc)]
  · rw [State.setPc_pc, if_neg fun e => hc (hb.1 e)]

end Sys2Proof.Machine
end

