-- ==== Sys2Proof/Laws/Decode.lean ====
section
/-! SUPPORT. The fields of the words the encoder builds, a word's fields put back together, and the masks of R76 in terms of
fields. -/

namespace Sys2Proof

/-! ## Bits of the parts of a word -/

theorem getLsbD_wordNNN (op : BitVec 4) (nnn : Addr12) (j : Nat) :
    (wordNNN op nnn).getLsbD j = if j < 12 then nnn.getLsbD j else op.getLsbD (j - 12) :=
  BitVec.getLsbD_append

theorem getLsbD_nnnOf (x : Reg) (kk : Byte) (j : Nat) :
    (nnnOf x kk).getLsbD j = if j < 8 then kk.getLsbD j else (BitVec.ofFin (w := 4) x).getLsbD (j - 8) :=
  BitVec.getLsbD_append

theorem getLsbD_kkOf (y : Reg) (n : BitVec 4) (j : Nat) :
    (kkOf y n).getLsbD j = if j < 4 then n.getLsbD j else (BitVec.ofFin (w := 4) y).getLsbD (j - 4) :=
  BitVec.getLsbD_append

theorem getLsbD_fieldOp (w : Word) (j : Nat) : (fieldOp w).getLsbD j = (decide (j < 4) && w.getLsbD (12 + j)) :=
  BitVec.getLsbD_extractLsb' ..

theorem getLsbD_fieldX (w : Word) (j : Nat) :
    (BitVec.ofFin (w := 4) (fieldX w)).getLsbD j = (decide (j < 4) && w.getLsbD (8 + j)) :=
  BitVec.getLsbD_extractLsb' 8 4 w j

theorem getLsbD_fieldY (w : Word) (j : Nat) :
    (BitVec.ofFin (w := 4) (fieldY w)).getLsbD j = (decide (j < 4) && w.getLsbD (4 + j)) :=
  BitVec.getLsbD_extractLsb' 4 4 w j

theorem getLsbD_fieldN (w : Word) (j : Nat) : (fieldN w).getLsbD j = (decide (j < 4) && w.getLsbD (0 + j)) :=
  BitVec.getLsbD_extractLsb' ..

theorem getLsbD_fieldKK (w : Word) (j : Nat) : (fieldKK w).getLsbD j = (decide (j < 8) && w.getLsbD (0 + j)) :=
  BitVec.getLsbD_extractLsb' ..

theorem getLsbD_fieldNNN (w : Word) (j : Nat) : (fieldNNN w).getLsbD j = (decide (j < 12) && w.getLsbD (0 + j)) :=
  BitVec.getLsbD_extractLsb' ..

/-- Two register numbers with the same nibble are the same. -/
theorem reg_eq_of_ofFin {x y : Reg} (h : BitVec.ofFin (w := 4) x = BitVec.ofFin (w := 4) y) : x = y :=
  congrArg BitVec.toFin h

/-! ## The fields of an encoded word -/

@[simp] theorem fieldOp_wordNNN (op : BitVec 4) (nnn : Addr12) : fieldOp (wordNNN op nnn) = op := by
  apply BitVec.eq_of_getLsbD_eq
  intro j hj
  have h : 12 + j - 12 = j := by omega
  rw [getLsbD_fieldOp, getLsbD_wordNNN, if_neg (by omega), h, decide_eq_true hj, Bool.true_and]

@[simp] theorem fieldNNN_wordNNN (op : BitVec 4) (nnn : Addr12) : fieldNNN (wordNNN op nnn) = nnn := by
  apply BitVec.eq_of_getLsbD_eq
  intro j hj
  rw [getLsbD_fieldNNN, getLsbD_wordNNN, if_pos (by omega), decide_eq_true hj, Bool.true_and, Nat.zero_add]

@[simp] theorem fieldOp_wordXKK (op : BitVec 4) (x : Reg) (kk : Byte) : fieldOp (wordXKK op x kk) = op :=
  fieldOp_wordNNN op _

@[simp] theorem fieldKK_wordXKK (op : BitVec 4) (x : Reg) (kk : Byte) : fieldKK (wordXKK op x kk) = kk := by
  apply BitVec.eq_of_getLsbD_eq
  intro j hj
  rw [getLsbD_fieldKK, wordXKK, getLsbD_wordNNN, if_pos (by omega), getLsbD_nnnOf, if_pos (by omega),
    decide_eq_true hj, Bool.true_and, Nat.zero_add]

@[simp] theorem fieldX_wordXKK (op : BitVec 4) (x : Reg) (kk : Byte) : fieldX (wordXKK op x kk) = x := by
  apply reg_eq_of_ofFin
  apply BitVec.eq_of_getLsbD_eq
  intro j hj
  have h : 8 + j - 8 = j := by omega
  rw [getLsbD_fieldX, wordXKK, getLsbD_wordNNN, if_pos (by omega), getLsbD_nnnOf, if_neg (by omega), h,
    decide_eq_true hj, Bool.true_and]

@[simp] theorem fieldOp_wordXYN (op : BitVec 4) (x y : Reg) (n : BitVec 4) : fieldOp (wordXYN op x y n) = op :=
  fieldOp_wordNNN op _

@[simp] theorem fieldX_wordXYN (op : BitVec 4) (x y : Reg) (n : BitVec 4) : fieldX (wordXYN op x y n) = x :=
  fieldX_wordXKK op x _

@[simp] theorem fieldKK_wordXYN (op : BitVec 4) (x y : Reg) (n : BitVec 4) : fieldKK (wordXYN op x y n) = kkOf y n :=
  fieldKK_wordXKK op x _

/-- `y` is the high nibble of `kk` (R71). -/
theorem getLsbD_fieldY_kk (w : Word) (j : Nat) (hj : j < 4) :
    (BitVec.ofFin (w := 4) (fieldY w)).getLsbD j = (fieldKK w).getLsbD (4 + j) := by
  rw [getLsbD_fieldY, getLsbD_fieldKK, decide_eq_true hj, decide_eq_true (by omega : 4 + j < 8), Nat.zero_add]

/-- `n` is the low nibble of `kk` (R71). -/
theorem getLsbD_fieldN_kk (w : Word) (j : Nat) (hj : j < 4) : (fieldN w).getLsbD j = (fieldKK w).getLsbD j := by
  rw [getLsbD_fieldN, getLsbD_fieldKK, decide_eq_true hj, decide_eq_true (by omega : j < 8), Nat.zero_add]

@[simp] theorem fieldY_wordXYN (op : BitVec 4) (x y : Reg) (n : BitVec 4) : fieldY (wordXYN op x y n) = y := by
  apply reg_eq_of_ofFin
  apply BitVec.eq_of_getLsbD_eq
  intro j hj
  have h : 4 + j - 4 = j := by omega
  rw [getLsbD_fieldY_kk _ _ hj, fieldKK_wordXYN, getLsbD_kkOf, if_neg (by omega), h]

@[simp] theorem fieldN_wordXYN (op : BitVec 4) (x y : Reg) (n : BitVec 4) : fieldN (wordXYN op x y n) = n := by
  apply BitVec.eq_of_getLsbD_eq
  intro j hj
  rw [getLsbD_fieldN_kk _ _ hj, fieldKK_wordXYN, getLsbD_kkOf, if_pos hj]

/-! ## A word from its fields (R71: `nnn = {x, kk}`, `kk = {y, n}`) -/

theorem wordNNN_fields (w : Word) : wordNNN (fieldOp w) (fieldNNN w) = w := by
  apply BitVec.eq_of_getLsbD_eq
  intro j hj
  rw [getLsbD_wordNNN]
  split
  next h => rw [getLsbD_fieldNNN, decide_eq_true h, Bool.true_and, Nat.zero_add]
  next h =>
    have h' : 12 + (j - 12) = j := by omega
    rw [getLsbD_fieldOp, decide_eq_true (by omega : j - 12 < 4), Bool.true_and, h']

theorem nnnOf_fields (w : Word) : nnnOf (fieldX w) (fieldKK w) = fieldNNN w := by
  apply BitVec.eq_of_getLsbD_eq
  intro j hj
  rw [getLsbD_nnnOf, getLsbD_fieldNNN, decide_eq_true hj, Bool.true_and, Nat.zero_add]
  split
  next h => rw [getLsbD_fieldKK, decide_eq_true h, Bool.true_and, Nat.zero_add]
  next h =>
    have h' : 8 + (j - 8) = j := by omega
    rw [getLsbD_fieldX, decide_eq_true (by omega : j - 8 < 4), Bool.true_and, h']

theorem kkOf_fields (w : Word) : kkOf (fieldY w) (fieldN w) = fieldKK w := by
  apply BitVec.eq_of_getLsbD_eq
  intro j hj
  rw [getLsbD_kkOf]
  split
  next h => exact getLsbD_fieldN_kk w j h
  next h =>
    have h' : 4 + (j - 4) = j := by omega
    rw [getLsbD_fieldY_kk w (j - 4) (by omega), h']

theorem wordXKK_fields (w : Word) : wordXKK (fieldOp w) (fieldX w) (fieldKK w) = w := by
  rw [wordXKK, nnnOf_fields, wordNNN_fields]

theorem wordXYN_fields (w : Word) : wordXYN (fieldOp w) (fieldX w) (fieldY w) (fieldN w) = w := by
  rw [wordXYN, kkOf_fields, wordXKK_fields]

/-- A word is its `op` and `nnn` (R71). -/
theorem word_eq_iff_op_nnn (w w' : Word) : w = w' ↔ fieldOp w = fieldOp w' ∧ fieldNNN w = fieldNNN w' := by
  constructor
  · rintro rfl
    exact ⟨rfl, rfl⟩
  · rintro ⟨h1, h2⟩
    rw [← wordNNN_fields w, ← wordNNN_fields w', h1, h2]

/-! ## The masks of R76 -/

/-- The bits of a mask made of nibbles: `w & mask` keeps the fields under an F nibble and clears the others. -/
theorem and_F000 (w : Word) : w &&& 0xF000#16 = wordNNN (fieldOp w) 0#12 := by
  apply BitVec.eq_of_getLsbD_eq
  intro j hj
  rw [BitVec.getLsbD_and, getLsbD_wordNNN, getLsbD_fieldOp]
  interval_cases j <;> simp

theorem and_F00F (w : Word) : w &&& 0xF00F#16 = wordXYN (fieldOp w) 0 0 (fieldN w) := by
  apply BitVec.eq_of_getLsbD_eq
  intro j hj
  rw [BitVec.getLsbD_and, wordXYN, wordXKK, getLsbD_wordNNN, getLsbD_nnnOf, getLsbD_kkOf, getLsbD_fieldOp, getLsbD_fieldN]
  interval_cases j <;> simp

theorem and_F0FF (w : Word) : w &&& 0xF0FF#16 = wordXKK (fieldOp w) 0 (fieldKK w) := by
  apply BitVec.eq_of_getLsbD_eq
  intro j hj
  rw [BitVec.getLsbD_and, wordXKK, getLsbD_wordNNN, getLsbD_nnnOf, getLsbD_fieldOp, getLsbD_fieldKK]
  interval_cases j <;> simp

theorem and_FFFF (w : Word) : w &&& 0xFFFF#16 = w := BitVec.and_allOnes

/-- Words of one format are the same exactly when their fields are. -/
theorem wordNNN_inj (op op' : BitVec 4) (a a' : Addr12) : wordNNN op a = wordNNN op' a' ↔ op = op' ∧ a = a' := by
  constructor
  · intro h
    exact ⟨by simpa using congrArg fieldOp h, by simpa using congrArg fieldNNN h⟩
  · rintro ⟨rfl, rfl⟩
    rfl

theorem wordXKK_inj (op op' : BitVec 4) (x x' : Reg) (k k' : Byte) :
    wordXKK op x k = wordXKK op' x' k' ↔ op = op' ∧ x = x' ∧ k = k' := by
  constructor
  · intro h
    exact ⟨by simpa using congrArg fieldOp h, by simpa using congrArg fieldX h, by simpa using congrArg fieldKK h⟩
  · rintro ⟨rfl, rfl, rfl⟩
    rfl

theorem wordXYN_inj (op op' : BitVec 4) (x x' y y' : Reg) (n n' : BitVec 4) :
    wordXYN op x y n = wordXYN op' x' y' n' ↔ op = op' ∧ x = x' ∧ y = y' ∧ n = n' := by
  constructor
  · intro h
    exact ⟨by simpa using congrArg fieldOp h, by simpa using congrArg fieldX h, by simpa using congrArg fieldY h,
      by simpa using congrArg fieldN h⟩
  · rintro ⟨rfl, rfl, rfl, rfl⟩
    rfl

/-- Matching under each mask is a test of the fields the mask keeps. -/
theorem matches_F000 (w : Word) (op : BitVec 4) : (w &&& 0xF000#16 == wordNNN op 0#12) = (fieldOp w == op) := by
  rw [and_F000, Bool.eq_iff_iff]
  simp [wordNNN_inj]

theorem matches_F00F (w : Word) (op n : BitVec 4) :
    (w &&& 0xF00F#16 == wordXYN op 0 0 n) = (fieldOp w == op && fieldN w == n) := by
  rw [and_F00F, Bool.eq_iff_iff]
  simp [wordXYN_inj]

theorem matches_F0FF (w : Word) (op : BitVec 4) (k : Byte) :
    (w &&& 0xF0FF#16 == wordXKK op 0 k) = (fieldOp w == op && fieldKK w == k) := by
  rw [and_F0FF, Bool.eq_iff_iff]
  simp [wordXKK_inj]

theorem matches_FFFF (w : Word) (a : Addr12) : (w &&& 0xFFFF#16 == wordNNN 0 a) = (fieldOp w == 0 && fieldNNN w == a) := by
  rw [and_FFFF, Bool.eq_iff_iff]
  simp [word_eq_iff_op_nnn]

/-- The group that is none of the fifteen others (R76). -/
theorem fieldOp_eq_F {w : Word} (h : ∀ k : Nat, k < 15 → fieldOp w ≠ BitVec.ofNat 4 k) : fieldOp w = 0xF#4 := by
  have hlt := (fieldOp w).isLt
  apply BitVec.eq_of_toNat_eq
  by_contra hc
  rw [show (0xF#4).toNat = 15 from rfl] at hc
  exact h (fieldOp w).toNat (by omega) (by simp)

/-- The two bytes of a word, put back together (R44, R70). -/
@[simp] theorem bigEndian_bytes (w : Word) : bigEndian (highByte w) (lowByte w) = w := by
  apply BitVec.eq_of_getLsbD_eq
  intro j hj
  have h : (bigEndian (highByte w) (lowByte w)).getLsbD j =
      if j < 8 then (lowByte w).getLsbD j else (highByte w).getLsbD (j - 8) := BitVec.getLsbD_append
  rw [h]
  split
  next h => rw [lowByte, BitVec.getLsbD_extractLsb', decide_eq_true h, Bool.true_and, Nat.zero_add]
  next h =>
    have h' : 8 + (j - 8) = j := by omega
    rw [highByte, BitVec.getLsbD_extractLsb', decide_eq_true (by omega : j - 8 < 8), Bool.true_and, h']

@[simp] theorem highByte_bigEndian (hi lo : Byte) : highByte (bigEndian hi lo) = hi := by
  apply BitVec.eq_of_getLsbD_eq
  intro j hj
  have h : (bigEndian hi lo).getLsbD (8 + j) = if 8 + j < 8 then lo.getLsbD (8 + j) else hi.getLsbD (8 + j - 8) :=
    BitVec.getLsbD_append
  have h' : 8 + j - 8 = j := by omega
  rw [highByte, BitVec.getLsbD_extractLsb', h, if_neg (by omega), h', decide_eq_true hj, Bool.true_and]

@[simp] theorem lowByte_bigEndian (hi lo : Byte) : lowByte (bigEndian hi lo) = lo := by
  apply BitVec.eq_of_getLsbD_eq
  intro j hj
  have h : (bigEndian hi lo).getLsbD (0 + j) = if 0 + j < 8 then lo.getLsbD (0 + j) else hi.getLsbD (0 + j - 8) :=
    BitVec.getLsbD_append
  rw [lowByte, BitVec.getLsbD_extractLsb', h, if_pos (by omega), Nat.zero_add, decide_eq_true hj, Bool.true_and]

end Sys2Proof
end

