-- ==== Sys2Proof/Laws/Display.lean ====
section
/-! SUPPORT. The laws of pixel access and of one toggled bit (43_display.md R161 to R164). -/

namespace Sys2Proof.Machine

theorem FrameBuffer.pixel_setPixel (fb : FrameBuffer) (x cx : Fin 64) (y cy : Fin 32) (b : Bool) :
    FrameBuffer.pixel (FrameBuffer.setPixel fb x y b) cx cy = if cx = x ∧ cy = y then b else FrameBuffer.pixel fb cx cy := by
  by_cases hy : cy = y
  · subst hy
    by_cases hx : cx = x
    · subst hx
      simp [FrameBuffer.pixel, FrameBuffer.setPixel]
    · have h : x.val ≠ cx.val := fun e => hx (Fin.ext e.symm)
      simp [FrameBuffer.pixel, FrameBuffer.setPixel, h, hx]
  · have h : y.val ≠ cy.val := fun e => hy (Fin.ext e.symm)
    simp [FrameBuffer.pixel, FrameBuffer.setPixel, h, hy]

@[simp] theorem FrameBuffer.pixel_blank (x : Fin 64) (y : Fin 32) : FrameBuffer.pixel FrameBuffer.blank x y = false := by
  simp [FrameBuffer.pixel, FrameBuffer.blank]

/-- Framebuffers with the same pixels are the same. -/
theorem FrameBuffer.ext_pixel {fb fb' : FrameBuffer} (h : ∀ x y, FrameBuffer.pixel fb x y = FrameBuffer.pixel fb' x y) :
    fb = fb' := by
  apply Vector.ext
  intro y hy
  apply Vector.ext
  intro x hx
  exact h ⟨x, hx⟩ ⟨y, hy⟩

/-- One toggled bit: its cell is inverted, every other cell is as before (R163). -/
theorem pixel_blitPixel (x y : Nat) (p : FrameBuffer × Bool) (cx : Fin 64) (cy : Fin 32) :
    FrameBuffer.pixel (blitPixel x y p).1 cx cy =
      if cx = wrapX x ∧ cy = wrapY y then !(FrameBuffer.pixel p.1 cx cy) else FrameBuffer.pixel p.1 cx cy := by
  rw [blitPixel, FrameBuffer.pixel_setPixel]
  split
  next h => rw [h.1, h.2]
  next => rfl

/-- One toggled bit: a collision exactly when there was one before or its cell was on (R164). -/
theorem collision_blitPixel (x y : Nat) (p : FrameBuffer × Bool) :
    (blitPixel x y p).2 = (p.2 || FrameBuffer.pixel p.1 (wrapX x) (wrapY y)) := rfl

@[simp] theorem State.fbPixel_eq (s : State) (x : Fin 64) (y : Fin 32) : s.fbPixel x y = FrameBuffer.pixel s.fb x y := rfl

theorem wrapX_eq_iff (x : Nat) (cx : Fin 64) : cx = wrapX x ↔ x % 64 = cx.val := by
  rw [Fin.ext_iff, wrapX, eq_comm]

theorem wrapY_eq_iff (y : Nat) (cy : Fin 32) : cy = wrapY y ↔ y % 32 = cy.val := by
  rw [Fin.ext_iff, wrapY, eq_comm]

/-- Two columns of one row of a sprite are two cells (R163: the reduction is modulo 64). -/
theorem wrapX_inj {x0 i j : Nat} (hi : i < 8) (hj : j < 8) (h : wrapX (x0 + i) = wrapX (x0 + j)) : i = j := by
  rw [wrapX, wrapX, Fin.mk.injEq] at h
  omega

/-! ## `drawSprite` -/

@[simp] theorem State.drawSprite_pc (s : State) (a b : Byte) (l : List Byte) : (s.drawSprite a b l).pc = s.pc := rfl
@[simp] theorem State.drawSprite_i (s : State) (a b : Byte) (l : List Byte) : (s.drawSprite a b l).i = s.i := rfl
@[simp] theorem State.drawSprite_dt (s : State) (a b : Byte) (l : List Byte) : (s.drawSprite a b l).dt = s.dt := rfl
@[simp] theorem State.drawSprite_sp (s : State) (a b : Byte) (l : List Byte) : (s.drawSprite a b l).sp = s.sp := rfl
@[simp] theorem State.drawSprite_stack (s : State) (a b : Byte) (l : List Byte) : (s.drawSprite a b l).stack = s.stack := rfl
@[simp] theorem State.drawSprite_mem (s : State) (a b : Byte) (l : List Byte) : (s.drawSprite a b l).mem = s.mem := rfl
@[simp] theorem State.drawSprite_run (s : State) (a b : Byte) (l : List Byte) : (s.drawSprite a b l).run = s.run := rfl
@[simp] theorem State.drawSprite_inputs (s : State) (a b : Byte) (l : List Byte) : (s.drawSprite a b l).inputs = s.inputs := rfl
@[simp] theorem State.drawSprite_pending (s : State) (a b : Byte) (l : List Byte) : (s.drawSprite a b l).pending = s.pending := rfl
@[simp] theorem State.drawSprite_turn (s : State) (a b : Byte) (l : List Byte) : (s.drawSprite a b l).turn = s.turn := rfl
@[simp] theorem State.drawSprite_fb (s : State) (a b : Byte) (l : List Byte) :
    (s.drawSprite a b l).fb = (FrameBuffer.draw s.fb a.toNat b.toNat l).1 := rfl
@[simp] theorem State.drawSprite_fbUpdates (s : State) (a b : Byte) (l : List Byte) :
    (s.drawSprite a b l).fbUpdates = s.fbUpdates + 1 := rfl
theorem State.getV_drawSprite (s : State) (a b : Byte) (l : List Byte) (r : Reg) :
    (s.drawSprite a b l).getV r =
      if r = 15 then collisionFlag (FrameBuffer.draw s.fb a.toNat b.toNat l).2 else s.getV r :=
  State.getV_setFlag (s.setFb _) r _

end Sys2Proof.Machine
end

