-- ==== Sys2Proof/Laws/PerInstr.lean ====
section
/-! SUPPORT. Per instruction: its word matches its row of the opcode table (30_encoding.md R76), and the row reads the instruction
back from it. One lemma per constructor. -/

namespace Sys2Proof.Laws.TableRow

/-- A row of R76 matches the instruction's word, and reads the instruction back from its operand fields. -/
def Statement (i : Instr) : Prop :=
  ∃ r ∈ opcodeTable, r.Matches (encodeWord i) = true ∧ r.instr (encodeWord i) = i

/-- The `k`-th row of the table stands for the instruction. -/
theorem of_row (i : Instr) (k : Fin 33) (h1 : (opcodeTable[k.val]'k.isLt).Matches (encodeWord i) = true)
    (h2 : (opcodeTable[k.val]'k.isLt).instr (encodeWord i) = i) : Statement i :=
  ⟨opcodeTable[k.val]'k.isLt, List.getElem_mem k.isLt, h1, h2⟩

theorem cls : Statement .cls := of_row _ 0 rfl rfl
theorem ret : Statement .ret := of_row _ 1 rfl rfl
theorem jp (nnn : Addr12) : Statement (.jp nnn) := by
  refine of_row _ 2 ?_ ?_
  · change (wordNNN 0x1#4 nnn &&& 0xF000#16 == 0x1000#16) = true
    rw [and_F000, fieldOp_wordNNN]
    rfl
  · change Instr.jp (fieldNNN (wordNNN 0x1#4 nnn)) = (.jp nnn)
    rw [fieldNNN_wordNNN]
theorem call (nnn : Addr12) : Statement (.call nnn) := by
  refine of_row _ 3 ?_ ?_
  · change (wordNNN 0x2#4 nnn &&& 0xF000#16 == 0x2000#16) = true
    rw [and_F000, fieldOp_wordNNN]
    rfl
  · change Instr.call (fieldNNN (wordNNN 0x2#4 nnn)) = (.call nnn)
    rw [fieldNNN_wordNNN]
theorem seImm (x : Reg) (kk : Byte) : Statement (.seImm x kk) := by
  refine of_row _ 4 ?_ ?_
  · change (wordXKK 0x3#4 x kk &&& 0xF000#16 == 0x3000#16) = true
    rw [and_F000, fieldOp_wordXKK]
    rfl
  · change Instr.seImm (fieldX (wordXKK 0x3#4 x kk)) (fieldKK (wordXKK 0x3#4 x kk)) = (.seImm x kk)
    rw [fieldX_wordXKK, fieldKK_wordXKK]
theorem sneImm (x : Reg) (kk : Byte) : Statement (.sneImm x kk) := by
  refine of_row _ 5 ?_ ?_
  · change (wordXKK 0x4#4 x kk &&& 0xF000#16 == 0x4000#16) = true
    rw [and_F000, fieldOp_wordXKK]
    rfl
  · change Instr.sneImm (fieldX (wordXKK 0x4#4 x kk)) (fieldKK (wordXKK 0x4#4 x kk)) = (.sneImm x kk)
    rw [fieldX_wordXKK, fieldKK_wordXKK]
theorem seReg (x : Reg) (y : Reg) : Statement (.seReg x y) := by
  refine of_row _ 6 ?_ ?_
  · change (wordXYN 0x5#4 x y 0x0#4 &&& 0xF00F#16 == 0x5000#16) = true
    rw [and_F00F, fieldOp_wordXYN, fieldN_wordXYN]
    rfl
  · change Instr.seReg (fieldX (wordXYN 0x5#4 x y 0x0#4)) (fieldY (wordXYN 0x5#4 x y 0x0#4)) = (.seReg x y)
    rw [fieldX_wordXYN, fieldY_wordXYN]
theorem ldImm (x : Reg) (kk : Byte) : Statement (.ldImm x kk) := by
  refine of_row _ 7 ?_ ?_
  · change (wordXKK 0x6#4 x kk &&& 0xF000#16 == 0x6000#16) = true
    rw [and_F000, fieldOp_wordXKK]
    rfl
  · change Instr.ldImm (fieldX (wordXKK 0x6#4 x kk)) (fieldKK (wordXKK 0x6#4 x kk)) = (.ldImm x kk)
    rw [fieldX_wordXKK, fieldKK_wordXKK]
theorem addImm (x : Reg) (kk : Byte) : Statement (.addImm x kk) := by
  refine of_row _ 8 ?_ ?_
  · change (wordXKK 0x7#4 x kk &&& 0xF000#16 == 0x7000#16) = true
    rw [and_F000, fieldOp_wordXKK]
    rfl
  · change Instr.addImm (fieldX (wordXKK 0x7#4 x kk)) (fieldKK (wordXKK 0x7#4 x kk)) = (.addImm x kk)
    rw [fieldX_wordXKK, fieldKK_wordXKK]
theorem ldReg (x : Reg) (y : Reg) : Statement (.ldReg x y) := by
  refine of_row _ 9 ?_ ?_
  · change (wordXYN 0x8#4 x y 0x0#4 &&& 0xF00F#16 == 0x8000#16) = true
    rw [and_F00F, fieldOp_wordXYN, fieldN_wordXYN]
    rfl
  · change Instr.ldReg (fieldX (wordXYN 0x8#4 x y 0x0#4)) (fieldY (wordXYN 0x8#4 x y 0x0#4)) = (.ldReg x y)
    rw [fieldX_wordXYN, fieldY_wordXYN]
theorem orReg (x : Reg) (y : Reg) : Statement (.orReg x y) := by
  refine of_row _ 10 ?_ ?_
  · change (wordXYN 0x8#4 x y 0x1#4 &&& 0xF00F#16 == 0x8001#16) = true
    rw [and_F00F, fieldOp_wordXYN, fieldN_wordXYN]
    rfl
  · change Instr.orReg (fieldX (wordXYN 0x8#4 x y 0x1#4)) (fieldY (wordXYN 0x8#4 x y 0x1#4)) = (.orReg x y)
    rw [fieldX_wordXYN, fieldY_wordXYN]
theorem andReg (x : Reg) (y : Reg) : Statement (.andReg x y) := by
  refine of_row _ 11 ?_ ?_
  · change (wordXYN 0x8#4 x y 0x2#4 &&& 0xF00F#16 == 0x8002#16) = true
    rw [and_F00F, fieldOp_wordXYN, fieldN_wordXYN]
    rfl
  · change Instr.andReg (fieldX (wordXYN 0x8#4 x y 0x2#4)) (fieldY (wordXYN 0x8#4 x y 0x2#4)) = (.andReg x y)
    rw [fieldX_wordXYN, fieldY_wordXYN]
theorem xorReg (x : Reg) (y : Reg) : Statement (.xorReg x y) := by
  refine of_row _ 12 ?_ ?_
  · change (wordXYN 0x8#4 x y 0x3#4 &&& 0xF00F#16 == 0x8003#16) = true
    rw [and_F00F, fieldOp_wordXYN, fieldN_wordXYN]
    rfl
  · change Instr.xorReg (fieldX (wordXYN 0x8#4 x y 0x3#4)) (fieldY (wordXYN 0x8#4 x y 0x3#4)) = (.xorReg x y)
    rw [fieldX_wordXYN, fieldY_wordXYN]
theorem addReg (x : Reg) (y : Reg) : Statement (.addReg x y) := by
  refine of_row _ 13 ?_ ?_
  · change (wordXYN 0x8#4 x y 0x4#4 &&& 0xF00F#16 == 0x8004#16) = true
    rw [and_F00F, fieldOp_wordXYN, fieldN_wordXYN]
    rfl
  · change Instr.addReg (fieldX (wordXYN 0x8#4 x y 0x4#4)) (fieldY (wordXYN 0x8#4 x y 0x4#4)) = (.addReg x y)
    rw [fieldX_wordXYN, fieldY_wordXYN]
theorem sub (x : Reg) (y : Reg) : Statement (.sub x y) := by
  refine of_row _ 14 ?_ ?_
  · change (wordXYN 0x8#4 x y 0x5#4 &&& 0xF00F#16 == 0x8005#16) = true
    rw [and_F00F, fieldOp_wordXYN, fieldN_wordXYN]
    rfl
  · change Instr.sub (fieldX (wordXYN 0x8#4 x y 0x5#4)) (fieldY (wordXYN 0x8#4 x y 0x5#4)) = (.sub x y)
    rw [fieldX_wordXYN, fieldY_wordXYN]
theorem shr (x : Reg) (y : Reg) : Statement (.shr x y) := by
  refine of_row _ 15 ?_ ?_
  · change (wordXYN 0x8#4 x y 0x6#4 &&& 0xF00F#16 == 0x8006#16) = true
    rw [and_F00F, fieldOp_wordXYN, fieldN_wordXYN]
    rfl
  · change Instr.shr (fieldX (wordXYN 0x8#4 x y 0x6#4)) (fieldY (wordXYN 0x8#4 x y 0x6#4)) = (.shr x y)
    rw [fieldX_wordXYN, fieldY_wordXYN]
theorem subn (x : Reg) (y : Reg) : Statement (.subn x y) := by
  refine of_row _ 16 ?_ ?_
  · change (wordXYN 0x8#4 x y 0x7#4 &&& 0xF00F#16 == 0x8007#16) = true
    rw [and_F00F, fieldOp_wordXYN, fieldN_wordXYN]
    rfl
  · change Instr.subn (fieldX (wordXYN 0x8#4 x y 0x7#4)) (fieldY (wordXYN 0x8#4 x y 0x7#4)) = (.subn x y)
    rw [fieldX_wordXYN, fieldY_wordXYN]
theorem shl (x : Reg) (y : Reg) : Statement (.shl x y) := by
  refine of_row _ 17 ?_ ?_
  · change (wordXYN 0x8#4 x y 0xE#4 &&& 0xF00F#16 == 0x800E#16) = true
    rw [and_F00F, fieldOp_wordXYN, fieldN_wordXYN]
    rfl
  · change Instr.shl (fieldX (wordXYN 0x8#4 x y 0xE#4)) (fieldY (wordXYN 0x8#4 x y 0xE#4)) = (.shl x y)
    rw [fieldX_wordXYN, fieldY_wordXYN]
theorem sneReg (x : Reg) (y : Reg) : Statement (.sneReg x y) := by
  refine of_row _ 18 ?_ ?_
  · change (wordXYN 0x9#4 x y 0x0#4 &&& 0xF00F#16 == 0x9000#16) = true
    rw [and_F00F, fieldOp_wordXYN, fieldN_wordXYN]
    rfl
  · change Instr.sneReg (fieldX (wordXYN 0x9#4 x y 0x0#4)) (fieldY (wordXYN 0x9#4 x y 0x0#4)) = (.sneReg x y)
    rw [fieldX_wordXYN, fieldY_wordXYN]
theorem ldI (nnn : Addr12) : Statement (.ldI nnn) := by
  refine of_row _ 19 ?_ ?_
  · change (wordNNN 0xA#4 nnn &&& 0xF000#16 == 0xA000#16) = true
    rw [and_F000, fieldOp_wordNNN]
    rfl
  · change Instr.ldI (fieldNNN (wordNNN 0xA#4 nnn)) = (.ldI nnn)
    rw [fieldNNN_wordNNN]
theorem jpV0 (nnn : Addr12) : Statement (.jpV0 nnn) := by
  refine of_row _ 20 ?_ ?_
  · change (wordNNN 0xB#4 nnn &&& 0xF000#16 == 0xB000#16) = true
    rw [and_F000, fieldOp_wordNNN]
    rfl
  · change Instr.jpV0 (fieldNNN (wordNNN 0xB#4 nnn)) = (.jpV0 nnn)
    rw [fieldNNN_wordNNN]
theorem rnd (x : Reg) (kk : Byte) : Statement (.rnd x kk) := by
  refine of_row _ 21 ?_ ?_
  · change (wordXKK 0xC#4 x kk &&& 0xF000#16 == 0xC000#16) = true
    rw [and_F000, fieldOp_wordXKK]
    rfl
  · change Instr.rnd (fieldX (wordXKK 0xC#4 x kk)) (fieldKK (wordXKK 0xC#4 x kk)) = (.rnd x kk)
    rw [fieldX_wordXKK, fieldKK_wordXKK]
theorem drw (x : Reg) (y : Reg) (n : Fin 16) : Statement (.drw x y n) := by
  refine of_row _ 22 ?_ ?_
  · change (wordXYN 0xD#4 x y (BitVec.ofFin (w := 4) n) &&& 0xF000#16 == 0xD000#16) = true
    rw [and_F000, fieldOp_wordXYN]
    rfl
  · change Instr.drw (fieldX (wordXYN 0xD#4 x y (BitVec.ofFin (w := 4) n))) (fieldY (wordXYN 0xD#4 x y (BitVec.ofFin (w := 4) n))) (fieldN (wordXYN 0xD#4 x y (BitVec.ofFin (w := 4) n))).toFin = (.drw x y n)
    rw [fieldX_wordXYN, fieldY_wordXYN, fieldN_wordXYN]
theorem skp (x : Reg) : Statement (.skp x) := by
  refine of_row _ 23 ?_ ?_
  · change (wordXKK 0xE#4 x 0x9E#8 &&& 0xF0FF#16 == 0xE09E#16) = true
    rw [and_F0FF, fieldOp_wordXKK, fieldKK_wordXKK]
    rfl
  · change Instr.skp (fieldX (wordXKK 0xE#4 x 0x9E#8)) = (.skp x)
    rw [fieldX_wordXKK]
theorem sknp (x : Reg) : Statement (.sknp x) := by
  refine of_row _ 24 ?_ ?_
  · change (wordXKK 0xE#4 x 0xA1#8 &&& 0xF0FF#16 == 0xE0A1#16) = true
    rw [and_F0FF, fieldOp_wordXKK, fieldKK_wordXKK]
    rfl
  · change Instr.sknp (fieldX (wordXKK 0xE#4 x 0xA1#8)) = (.sknp x)
    rw [fieldX_wordXKK]
theorem ldVxDT (x : Reg) : Statement (.ldVxDT x) := by
  refine of_row _ 25 ?_ ?_
  · change (wordXKK 0xF#4 x 0x07#8 &&& 0xF0FF#16 == 0xF007#16) = true
    rw [and_F0FF, fieldOp_wordXKK, fieldKK_wordXKK]
    rfl
  · change Instr.ldVxDT (fieldX (wordXKK 0xF#4 x 0x07#8)) = (.ldVxDT x)
    rw [fieldX_wordXKK]
theorem ldVxK (x : Reg) : Statement (.ldVxK x) := by
  refine of_row _ 26 ?_ ?_
  · change (wordXKK 0xF#4 x 0x0A#8 &&& 0xF0FF#16 == 0xF00A#16) = true
    rw [and_F0FF, fieldOp_wordXKK, fieldKK_wordXKK]
    rfl
  · change Instr.ldVxK (fieldX (wordXKK 0xF#4 x 0x0A#8)) = (.ldVxK x)
    rw [fieldX_wordXKK]
theorem ldDTVx (x : Reg) : Statement (.ldDTVx x) := by
  refine of_row _ 27 ?_ ?_
  · change (wordXKK 0xF#4 x 0x15#8 &&& 0xF0FF#16 == 0xF015#16) = true
    rw [and_F0FF, fieldOp_wordXKK, fieldKK_wordXKK]
    rfl
  · change Instr.ldDTVx (fieldX (wordXKK 0xF#4 x 0x15#8)) = (.ldDTVx x)
    rw [fieldX_wordXKK]
theorem addI (x : Reg) : Statement (.addI x) := by
  refine of_row _ 28 ?_ ?_
  · change (wordXKK 0xF#4 x 0x1E#8 &&& 0xF0FF#16 == 0xF01E#16) = true
    rw [and_F0FF, fieldOp_wordXKK, fieldKK_wordXKK]
    rfl
  · change Instr.addI (fieldX (wordXKK 0xF#4 x 0x1E#8)) = (.addI x)
    rw [fieldX_wordXKK]
theorem ldF (x : Reg) : Statement (.ldF x) := by
  refine of_row _ 29 ?_ ?_
  · change (wordXKK 0xF#4 x 0x29#8 &&& 0xF0FF#16 == 0xF029#16) = true
    rw [and_F0FF, fieldOp_wordXKK, fieldKK_wordXKK]
    rfl
  · change Instr.ldF (fieldX (wordXKK 0xF#4 x 0x29#8)) = (.ldF x)
    rw [fieldX_wordXKK]
theorem ldB (x : Reg) : Statement (.ldB x) := by
  refine of_row _ 30 ?_ ?_
  · change (wordXKK 0xF#4 x 0x33#8 &&& 0xF0FF#16 == 0xF033#16) = true
    rw [and_F0FF, fieldOp_wordXKK, fieldKK_wordXKK]
    rfl
  · change Instr.ldB (fieldX (wordXKK 0xF#4 x 0x33#8)) = (.ldB x)
    rw [fieldX_wordXKK]
theorem stRegs (x : Reg) : Statement (.stRegs x) := by
  refine of_row _ 31 ?_ ?_
  · change (wordXKK 0xF#4 x 0x55#8 &&& 0xF0FF#16 == 0xF055#16) = true
    rw [and_F0FF, fieldOp_wordXKK, fieldKK_wordXKK]
    rfl
  · change Instr.stRegs (fieldX (wordXKK 0xF#4 x 0x55#8)) = (.stRegs x)
    rw [fieldX_wordXKK]
theorem ldRegs (x : Reg) : Statement (.ldRegs x) := by
  refine of_row _ 32 ?_ ?_
  · change (wordXKK 0xF#4 x 0x65#8 &&& 0xF0FF#16 == 0xF065#16) = true
    rw [and_F0FF, fieldOp_wordXKK, fieldKK_wordXKK]
    rfl
  · change Instr.ldRegs (fieldX (wordXKK 0xF#4 x 0x65#8)) = (.ldRegs x)
    rw [fieldX_wordXKK]

end Sys2Proof.Laws.TableRow
end

