-- ==== Sys2Proof/Tests/Slice0.lean ====
section
/-! SUPPORT. Tests. The expected values are the spec's: the encodings of 30_encoding.md R76 and the vectors of
95_test_vectors.md, named in each comment. After the tests stand the witnesses: for every statement with hypotheses, states and
operands that meet them. -/

namespace Sys2Proof.Tests

open Sys2Proof Sys2Proof.Machine

/-! ## Helpers -/

/-- The reset state with some V registers set. -/
def regs (l : List (Reg × Byte)) : State := l.foldl (fun s p => s.setV p.1 p.2) State.reset

/-- The state with bytes stored at an address. -/
def put (s : State) (a : Nat) (bytes : List Byte) : State := s.setMem (Memory.writeBytes s.mem a bytes)

/-- The state with the host's signals replaced. -/
def hear (s : State) (h : HostInputs) : State := { s with inputs := h }

/-- The host's signals with nothing asserted. -/
def idle : HostInputs := { keys := Vector.replicate 16 false, keyEvent := none, rand := 0, closeReq := false }

/-- Key A alone is down. -/
def keyADown : HostInputs := { idle with keys := (Vector.replicate 16 false).set 10 true }

/-- Key `k` has gone down, as an event. -/
def keyPressed (k : Fin 16) : HostInputs := { idle with keyEvent := some k }

/-- The random byte is `b`. -/
def drawn (b : Byte) : HostInputs := { idle with rand := b }

/-- The host asks the run to end. -/
def closing : HostInputs := { idle with closeReq := true }

/-- One cycle with the word at pc, and what is looked at after it. -/
def after {α : Type} (w : Nat) (s : State) (look : State → α) : Option α :=
  match cycle (s.withFetchWord 16 w) with
  | .next t => some (look t)
  | .fault _ => none
  | .refused _ => none

/-- A V register and VF. -/
def vAndFlag (r : Reg) (t : State) : Byte × Byte := (t.getV r, t.getV 15)

/-- The bytes at an address and after. -/
def bytesAt (a len : Nat) (t : State) : List Byte := Memory.readBytes t.mem a len

/-! ## Well-formedness: ill-formed terms are refused -/

theorem test_assembled_refuses_shr_with_y : (Instr.shr 0 1).assembled = false := by decide
theorem test_assembled_refuses_shl_with_y : (Instr.shl 0 15).assembled = false := by decide
theorem test_assembled_takes_shr : (Instr.shr 3 0).assembled = true := by decide
theorem test_image_of_3585_bytes_is_refused : imageWellFormed (List.replicate 3585 0) = false := by
  rw [imageWellFormed, List.length_replicate]
  decide
theorem test_font_of_79_bytes_is_refused : fontWellFormed (List.replicate 79 0) = false := by decide
theorem test_font_of_80_bytes_is_taken : fontWellFormed Config.font = true := by decide

/-! ## Decoding: words written out from R76, for every row of the table -/

theorem test_decode_control :
    decodeWord 0b0000000011101110 = some .ret ∧ decodeWord 0b0001101010111100 = some (.jp 0xABC) ∧
    decodeWord 0b0010001100000000 = some (.call 0x300) ∧ decodeWord 0b0011001100101010 = some (.seImm 3 0x2A) ∧
    decodeWord 0b0100001100101010 = some (.sneImm 3 0x2A) ∧ decodeWord 0b0101000100100000 = some (.seReg 1 2) ∧
    decodeWord 0b1001000100100000 = some (.sneReg 1 2) ∧ decodeWord 0b1011001011111111 = some (.jpV0 0x2FF) := by
  decide

theorem test_decode_alu :
    decodeWord 0b0110101001111111 = some (.ldImm 10 0x7F) ∧ decodeWord 0b0111001000000010 = some (.addImm 2 0x02) ∧
    decodeWord 0b1000000111110000 = some (.ldReg 1 15) ∧ decodeWord 0b1000000111110001 = some (.orReg 1 15) ∧
    decodeWord 0b1000000111110010 = some (.andReg 1 15) ∧ decodeWord 0b1000000111110011 = some (.xorReg 1 15) ∧
    decodeWord 0b1000000111110100 = some (.addReg 1 15) ∧ decodeWord 0b1000000111110101 = some (.sub 1 15) ∧
    decodeWord 0b1000000111110110 = some (.shr 1 15) ∧ decodeWord 0b1000000111110111 = some (.subn 1 15) ∧
    decodeWord 0b1000000111111110 = some (.shl 1 15) ∧ decodeWord 0b1100001100001111 = some (.rnd 3 0x0F) := by
  decide

theorem test_decode_memory_and_display :
    decodeWord 0b1010001011110000 = some (.ldI 0x2F0) ∧ decodeWord 0b1111001000011110 = some (.addI 2) ∧
    decodeWord 0b1111001000101001 = some (.ldF 2) ∧ decodeWord 0b1111001000110011 = some (.ldB 2) ∧
    decodeWord 0b1111000101010101 = some (.stRegs 1) ∧ decodeWord 0b1111000101100101 = some (.ldRegs 1) ∧
    decodeWord 0b0000000011100000 = some .cls ∧ decodeWord 0b1101000111100101 = some (.drw 1 14 5) := by
  decide

theorem test_decode_keys_and_timer :
    decodeWord 0b1110001010011110 = some (.skp 2) ∧ decodeWord 0b1110001010100001 = some (.sknp 2) ∧
    decodeWord 0b1111000100000111 = some (.ldVxDT 1) ∧ decodeWord 0b1111001100001010 = some (.ldVxK 3) ∧
    decodeWord 0b1111000000010101 = some (.ldDTVx 0) := by
  decide

/-- The near misses E8 to E18. -/
theorem test_decode_unknown :
    decodeWord 0x0123 = none ∧ decodeWord 0x00E1 = none ∧ decodeWord 0x00FE = none ∧ decodeWord 0x5121 = none ∧
    decodeWord 0x9121 = none ∧ decodeWord 0x8018 = none ∧ decodeWord 0x801F = none ∧ decodeWord 0xE29F = none ∧
    decodeWord 0xF018 = none ∧ decodeWord 0xF075 = none ∧ decodeWord 0xFFFF = none := by
  decide

/-- E1: the byte at the lower address is the high byte; E2: the same bytes swapped are another word. -/
theorem test_decode_is_big_endian :
    decode [0x12, 0x34, 0x56] = .ok (.jp 0x234, [0x56]) ∧ decode [0x34, 0x12] = .ok (.seImm 4 0x12, []) ∧
    decode [0x12] = .error .truncated ∧ decode [0xF0, 0x18] = .error (.unknownOpcode 0xF018) := by
  decide

theorem test_table_word_numbering : decodeTableWord 16 0xD125 = some (.drw 1 2 5) := by decide

theorem test_encode : encode (.drw 1 14 5) = [0xD1, 0xE5] ∧ encode (.stRegs 7) = [0xF7, 0x55] ∧ encode .ret = [0x00, 0xEE] := by
  decide

/-! ## The cycle -/

/-- E3: an odd pc is fetched from. -/
theorem test_odd_pc : after 0x6A7F { State.reset with pc := 0x201 } (fun t => (t.pc, t.getV 10)) = some (0x203, 0x7F) := by
  decide
/-- E4: the last legal fetch. -/
theorem test_last_fetch : after 0x1200 { State.reset with pc := 0xFFE } State.pc = some 0x200 := by decide
/-- E5: the fetch fault; the timer ticked, pc kept. -/
theorem test_fetch_fault :
    after 0x0000 { State.reset with pc := 0xFFF, dt := 5 } (fun t => (t.pc, t.dt, t.run)) =
      some (0xFFF, 4, .faulted (.memOutOfBounds 0x1000)) := by
  decide
/-- E16: an unknown word only ticks. -/
theorem test_unknown_word_ticks :
    after 0xF018 { regs [(0, 9)] with dt := 4 } (fun t => (t.pc, t.dt, t.getV 0)) = some (0x202, 3, 9) := by
  decide
/-- Q6: a close request is sampled after the cycle, not before it. -/
theorem test_close_after_first_cycle :
    (match step { State.reset with inputs := closing, pending := [closing] } with
      | .next t => some (t.pc, t.run)
      | .fault _ => none
      | .refused _ => none) = some (0x202, .halted) := by
  decide

/-! ## Control (2.2) -/

/-- C8. -/
theorem test_ret :
    after 0x00EE { State.reset with pc := 0x300, sp := 1, stack := (Vector.replicate 16 0).set 0 0x204 }
      (fun t => (t.pc, t.sp)) = some (0x204, 0) := by
  decide
/-- C9. -/
theorem test_ret_underflow : after 0x00EE State.reset (fun t => (t.pc, t.run)) = some (0x202, .faulted (.stackOutOfBounds 0)) := by
  decide
/-- C1. -/
theorem test_jp : after 0x1ABC State.reset State.pc = some 0xABC := by decide
/-- C5. -/
theorem test_call :
    after 0x2300 { State.reset with pc := 0x202 } (fun t => (t.pc, t.sp, t.stack[0])) = some (0x300, 1, 0x204) := by
  decide
/-- C7. -/
theorem test_call_overflow :
    after 0x2300 { State.reset with sp := 16 } (fun t => (t.pc, t.run)) = some (0x202, .faulted (.stackOutOfBounds 16)) := by
  decide
/-- C11, C12. -/
theorem test_se_imm_taken : after 0x332A (regs [(3, 0x2A)]) State.pc = some 0x204 := by decide
theorem test_se_imm_not_taken : after 0x332A (regs [(3, 0x2B)]) State.pc = some 0x202 := by decide
/-- C13, C14. -/
theorem test_sne_imm_taken : after 0x432A (regs [(3, 0x2B)]) State.pc = some 0x204 := by decide
theorem test_sne_imm_not_taken : after 0x432A (regs [(3, 0x2A)]) State.pc = some 0x202 := by decide
/-- C15, C16. -/
theorem test_se_reg_taken : after 0x5120 (regs [(1, 7), (2, 7)]) State.pc = some 0x204 := by decide
theorem test_se_reg_not_taken : after 0x5120 (regs [(1, 7), (2, 8)]) State.pc = some 0x202 := by decide
/-- C18, C19. -/
theorem test_sne_reg_taken : after 0x9120 (regs [(1, 7), (2, 8)]) State.pc = some 0x204 := by decide
theorem test_sne_reg_not_taken : after 0x9120 (regs [(1, 7), (2, 7)]) State.pc = some 0x202 := by decide
/-- C22: the register is V0, not V2. C24: the largest sum. -/
theorem test_jp_v0 : after 0xB2FF (regs [(0, 1), (2, 0x80)]) State.pc = some 0x300 := by decide
theorem test_jp_v0_not_reduced : after 0xBFFF (regs [(0, 0xFF)]) State.pc = some 0x10FE := by decide

/-! ## Arithmetic (2.3) -/

/-- A1. -/
theorem test_ld_imm : after 0x6A7F State.reset (State.getV · 10) = some 0x7F := by decide
/-- A3. -/
theorem test_add_imm_wraps : after 0x7202 (regs [(2, 0xFF), (15, 7)]) (vAndFlag 2) = some (1, 7) := by decide
/-- A6. -/
theorem test_ld_reg : after 0x8010 (regs [(1, 0x33)]) (State.getV · 0) = some 0x33 := by decide
/-- A7, A8, A9. -/
theorem test_or : after 0x8011 (regs [(0, 0xF0), (1, 0x0F), (15, 1)]) (vAndFlag 0) = some (0xFF, 1) := by decide
theorem test_and : after 0x8012 (regs [(0, 0xF3), (1, 0x3F), (15, 1)]) (vAndFlag 0) = some (0x33, 1) := by decide
theorem test_xor : after 0x8013 (regs [(0, 0xFF), (1, 0x0F), (15, 1)]) (vAndFlag 0) = some (0xF0, 1) := by decide
/-- A12; A18: with x = 15 the result survives. -/
theorem test_add_carry : after 0x8014 (regs [(0, 0x6E), (1, 0xFA)]) (vAndFlag 0) = some (0x68, 1) := by decide
theorem test_add_into_flag : after 0x8F14 (regs [(15, 0xFF), (1, 1)]) (State.getV · 15) = some 0 := by decide
/-- A25, A26: the readings of the flag differ here. -/
theorem test_sub_flag_clear : after 0x8015 (regs [(0, 0), (1, 0xC8), (15, 1)]) (vAndFlag 0) = some (0x38, 0) := by decide
theorem test_sub_flag_set : after 0x8015 (regs [(0, 0x7F), (1, 0xFF)]) (vAndFlag 0) = some (0x80, 1) := by decide
/-- A30; A33: y is ignored. -/
theorem test_shr : after 0x8006 (regs [(0, 5)]) (vAndFlag 0) = some (2, 1) := by decide
theorem test_shr_ignores_y : after 0x8016 (regs [(0, 4), (1, 0xFF)]) (fun t => (t.getV 0, t.getV 1)) = some (2, 0xFF) := by
  decide
/-- A36, A37. -/
theorem test_subn : after 0x8017 (regs [(0, 2), (1, 3), (15, 1)]) (vAndFlag 0) = some (1, 0) := by decide
theorem test_subn_negative : after 0x8017 (regs [(0, 5), (1, 3)]) (vAndFlag 0) = some (0xFE, 1) := by decide
/-- A41: VF is 0x80, not 1; A45. -/
theorem test_shl : after 0x800E (regs [(0, 0xFF)]) (vAndFlag 0) = some (0xFE, 0x80) := by decide
theorem test_shl_into_flag : after 0x8F0E (regs [(15, 0x81)]) (State.getV · 15) = some 2 := by decide
/-- A46. -/
theorem test_rnd : after 0xC30F (hear State.reset (drawn 0xA7)) (State.getV · 3) = some 7 := by decide

/-! ## Address register and memory (2.4) -/

/-- M2. -/
theorem test_ld_i : after 0xAFFF { State.reset with i := 0x1234 } State.i = some 0xFFF := by decide
/-- M4, M5. -/
theorem test_add_i_passes_fff : after 0xF01E { regs [(0, 1)] with i := 0xFFF } State.i = some 0x1000 := by decide
theorem test_add_i_wraps : after 0xF01E { regs [(0, 1)] with i := 0xFFFF } State.i = some 0 := by decide
/-- M6, M9. -/
theorem test_ld_f : after 0xF029 (regs [(0, 4)]) State.i = some 20 := by decide
theorem test_ld_f_not_masked : after 0xF029 (regs [(0, 0xFF)]) State.i = some 1275 := by decide
/-- M10; M15: nothing is stored. -/
theorem test_ld_b : after 0xF033 { regs [(0, 0xEA)] with i := 0x300 } (bytesAt 0x300 4) = some [2, 3, 4, 0] := by decide
theorem test_ld_b_fault :
    after 0xF033 { regs [(0, 0x7B)] with i := 0xFFE } (fun t => (bytesAt 0xFFE 2 t, t.run)) =
      some ([0, 0], .faulted (.memOutOfBounds 0x1000)) := by
  decide
/-- M18; M26: its own bytes. -/
theorem test_st_regs :
    after 0xF155 (put { regs [(0, 3), (1, 0)] with i := 0x300 } 0x300 [7, 7, 7]) (bytesAt 0x300 3) = some [3, 0, 7] := by
  decide
theorem test_st_regs_over_itself :
    after 0xF155 { regs [(0, 0x12), (1, 0)] with i := 0x200 } (bytesAt 0x200 2) = some [0x12, 0] := by
  decide
/-- M22; M24: the font at address 20. -/
theorem test_ld_regs :
    after 0xF265 (put { regs [(3, 0x77)] with i := 0x300 } 0x300 [0, 1, 5, 9])
      (fun t => (t.getV 1, t.getV 2, t.getV 3, t.i)) = some (1, 5, 0x77, 0x300) := by
  decide
theorem test_ld_regs_font : after 0xF065 { State.reset with i := 0x14 } (State.getV · 0) = some 0x90 := by decide

/-! ## Display (2.5) -/

/-- D1. -/
theorem test_cls :
    after 0x00E0 ((regs [(15, 1)]).setFb (FrameBuffer.setPixel FrameBuffer.blank 63 31 true))
      (fun t => (t.fbPixel 63 31, t.getV 15, t.fbUpdates)) = some (false, 1, 1) := by
  decide
/-- D2: wraps right and bottom. D7: a zero bit leaves an on cell on. -/
theorem test_drw_wraps :
    after 0xD012 (put { regs [(0, 0x3E), (1, 0x1F)] with i := 0x300 } 0x300 [0xF0, 0x81])
      (fun t => (t.fbPixel 63 31, t.fbPixel 1 31, t.fbPixel 5 0, t.fbPixel 2 31, t.getV 15)) =
        some (true, true, true, false, 0) := by
  decide
theorem test_drw_zero_bit :
    after 0xD001 ((put { regs [(15, 1)] with i := 0x300 } 0x300 [0x40]).setFb
        (FrameBuffer.setPixel FrameBuffer.blank 0 0 true))
      (fun t => (t.fbPixel 0 0, t.fbPixel 1 0, t.getV 15)) = some (true, true, 0) := by
  decide

/-! ## Keys and timer (2.6) -/

/-- T9; T12: not masked. -/
theorem test_skp : after 0xE29E (hear (regs [(2, 10)]) keyADown) State.pc = some 0x204 := by decide
theorem test_skp_not_masked :
    after 0xE29E (hear (regs [(2, 0x1A)]) keyADown) (fun t => (t.pc, t.run)) = some (0x202, .faulted (.keyIndex 26)) := by
  decide
/-- T13, T14. -/
theorem test_sknp : after 0xE2A1 (hear (regs [(2, 10)]) idle) State.pc = some 0x204 := by decide
theorem test_sknp_not_taken : after 0xE2A1 (hear (regs [(2, 10)]) keyADown) State.pc = some 0x202 := by decide
/-- T4. -/
theorem test_ld_vx_dt : after 0xF107 { State.reset with dt := 3 } (fun t => (t.getV 1, t.dt)) = some (2, 2) := by decide
/-- T16. -/
theorem test_ld_vx_k :
    after 0xF30A (hear { State.reset with dt := 5 } (keyPressed 7)) (fun t => (t.pc, t.getV 3, t.dt)) =
      some (0x202, 7, 4) := by
  decide
/-- R184: without a key event the block waits, and a close request meanwhile changes nothing (Q7). -/
theorem test_ld_vx_k_waits :
    (match step { (State.reset.withFetchWord 16 0xF30A) with dt := 5, inputs := idle, pending := [closing] } with
      | .next t => some (t.pc, t.dt, t.run, t.inputs.closeReq)
      | .fault _ => none
      | .refused _ => none) = some (0x200, 5, .running, true) := by
  decide
/-- R6, R26: what the host presents to the first cycle is a free draw. -/
theorem test_first_inputs_are_free : State.reset.inputs = freeInputs 0 := rfl
/-- T7. -/
theorem test_ld_dt_vx : after 0xF015 { regs [(0, 3)] with dt := 9 } State.dt = some 3 := by decide

/-! ## Reset and construction (2.7) -/

/-- Q1. -/
theorem test_construct :
    (State.construct Config.font [0x12, 0x00]).map (fun s => (bytesAt 0 5 s, bytesAt 0x4B 6 s, bytesAt 0x200 3 s, s.pc)) =
      some ([0xF0, 0x90, 0x90, 0x90, 0xF0], [0xF0, 0x80, 0xF0, 0x80, 0x80, 0x00], [0x12, 0x00, 0x00], 0x200) := by
  decide
/-- Q4. -/
theorem test_construct_refuses_3585 : State.construct Config.font (List.replicate 3585 0) = none := by
  rw [State.construct, test_image_of_3585_bytes_is_refused, Bool.and_false]
  rfl

/-! ## Witnesses: what meets the hypotheses of each statement of Certificates/Slice0/Obligations.lean

A statement not named here has no hypothesis. Where a statement has clauses, each has its witness, at the ends of its range. -/

/-- The reset state with a word at pc. -/
def sample (w : Nat) : State := State.reset.withFetchWord 16 w

/-- The reset state with I set. -/
def atI (a : Word) : State := { State.reset with i := a }

/-- The reset state with SP set. -/
def atSP (n : Fin 17) : State := { State.reset with sp := n }

/-- The reset state with pc set. -/
def atPc (a : Word) : State := { State.reset with pc := a }

theorem fetches_sample {w : Nat} {i : Instr} (h : decodeWord (sample w).wordAtPc = some i) : Fetches (sample w) i :=
  ⟨rfl, by show (0x200#16).toNat ≤ 0xFFE; decide, h⟩

theorem witness_EncodeInvertsDecode : decode (0xD1 :: 0x25 :: [0x12]) = .ok (.drw 1 2 5, [0x12]) := by decide

theorem witness_DecoderIsTheOpcodeTable :
    decodeWord 0xFF65 = some (.ldRegs 15) ∧
    ∃ r ∈ opcodeTable, r.Matches 0xFF65 = true ∧ r.instr 0xFF65 = .ldRegs 15 :=
  ⟨by decide, ⟨0xF065, 0xF0FF, fun w => .ldRegs (fieldX w)⟩, by simp [opcodeTable, opcodeTableC], by decide, by decide⟩

theorem witness_UnknownWords :
    (fieldOp 0x0123 = 0x0#4 ∧ fieldNNN 0x0123 ≠ 0x0E0#12 ∧ fieldNNN 0x0123 ≠ 0x0EE#12) ∧
    (fieldOp 0x5121 = 0x5#4 ∧ fieldN 0x5121 ≠ 0#4) ∧ (fieldOp 0x801F = 0x8#4 ∧ fieldN 0x801F = 0xF#4) ∧
    (fieldOp 0x9121 = 0x9#4 ∧ fieldN 0x9121 ≠ 0#4) ∧ (fieldOp 0xE29F = 0xE#4 ∧ fieldKK 0xE29F = 0x9F#8) ∧
    (fieldOp 0xF018 = 0xF#4 ∧ fieldKK 0xF018 = 0x18#8) := by
  decide

theorem witness_StepRuns_completes :
    Fetches (sample 0x1ABC) (.jp 0xABC) ∧ ∃ t, exec (.jp 0xABC) (sample 0x1ABC).atOperation = .next t :=
  ⟨fetches_sample (by decide), _, rfl⟩

theorem witness_StepRuns_waits :
    Fetches (hear (sample 0xF30A) idle) (.ldVxK 3) ∧
    exec (.ldVxK 3) (hear (sample 0xF30A) idle).atOperation = .fault .awaitingKey :=
  ⟨fetches_sample (w := 0xF30A) (by decide), rfl⟩

theorem witness_UnknownWordIsNoOperation :
    (atPc 0xFFE).run = .running ∧ (atPc 0xFFE).pc.toNat ≤ 0xFFE ∧ decodeWord (atPc 0xFFE).wordAtPc = none := by
  decide

theorem witness_PlacedWordIsFetched : Memory.wf (atPc 0xFFE).mem = true ∧ (atPc 0xFFE).pc.toNat ≤ 0xFFE := by decide

theorem witness_FetchPastTheEnd :
    ((atPc 0xFFF).run = .running ∧ 0xFFF ≤ (atPc 0xFFF).pc.toNat) ∧
    ((atPc 0xFFFF).run = .running ∧ 0xFFF ≤ (atPc 0xFFFF).pc.toNat) := by
  decide

theorem witness_StoppedBlock :
    (State.reset.raise (.keyIndex 16)).run = .faulted (.keyIndex 16) ∧ (State.reset.setRun .halted).run = .halted := by
  decide

theorem witness_CloseRequest_running : State.reset.run = .running ∧ ∃ t, cycle State.reset = .next t ∧ t.run = .running :=
  ⟨rfl, _, rfl, rfl⟩

theorem witness_CloseRequest_faulted :
    (atPc 0xFFF).run = .running ∧ ∃ t, cycle (atPc 0xFFF) = .next t ∧ t.run = .faulted (.memOutOfBounds 0x1000) :=
  ⟨rfl, _, rfl, rfl⟩

theorem witness_CloseRequest_pending :
    ∃ s : State, s.run = .running ∧ (∃ t, cycle s = .next t) ∧ s.pending = closing :: [] ∧ s.nextInputs.closeReq = true :=
  ⟨{ State.reset with pending := [closing] }, rfl, ⟨_, rfl⟩, rfl, rfl⟩

theorem witness_WaitForKey :
    Fetches (hear (sample 0xF30A) idle) (.ldVxK 3) ∧ (hear (sample 0xF30A) idle).inputs.keyEvent = none :=
  ⟨fetches_sample (w := 0xF30A) (by decide), rfl⟩

theorem witness_EveryCycleTicks_operation : Fetches (sample 0xF015) (.ldDTVx 0) := fetches_sample (by decide)

theorem witness_EveryCycleTicks_lower :
    State.reset.run = .running ∧ (∀ x, ¬ Fetches State.reset (.ldDTVx x)) ∧ ∃ t, cycle State.reset = .next t := by
  refine ⟨rfl, fun x h => ?_, _, rfl⟩
  have h1 : decodeWord State.reset.wordAtPc = none := by decide
  rw [h.2.2] at h1
  cases h1

theorem witness_EveryCycleTicks_stopped : (State.reset.setRun .halted).run ≠ .running := by decide

theorem witness_Ret : 0 < (atSP 1).sp.val ∧ 0 < (atSP 16).sp.val ∧ (atSP 0).sp.val = 0 := by decide

theorem witness_Jump : fieldOp 0x1000 = 0x1#4 ∧ fieldOp 0x1FFF = 0x1#4 := by decide

theorem witness_Call : (atSP 0).sp.val < 16 ∧ (atSP 15).sp.val < 16 ∧ (atSP 16).sp.val = 16 := by decide

theorem witness_RetUndoesCall :
    ∃ s t u : State, s.sp.val < 16 ∧ exec (.call 0x300) s = .next t ∧ u.sp = t.sp ∧ u.stack = t.stack :=
  ⟨atSP 15, _, _, by decide, rfl, rfl, rfl⟩

theorem witness_Skips_words :
    fieldOp 0x332A = 0x3#4 ∧ fieldOp 0x432A = 0x4#4 ∧ (fieldOp 0x5120 = 0x5#4 ∧ fieldN 0x5120 = 0#4) ∧
    (fieldOp 0x5121 = 0x5#4 ∧ fieldN 0x5121 ≠ 0#4) ∧ (fieldOp 0x9120 = 0x9#4 ∧ fieldN 0x9120 = 0#4) ∧
    (fieldOp 0x9121 = 0x9#4 ∧ fieldN 0x9121 ≠ 0#4) := by
  decide

theorem witness_Skips_conditions :
    State.reset.getV 3 = 0x00 ∧ State.reset.getV 3 ≠ 0x2A ∧ State.reset.getV 1 = State.reset.getV 2 ∧
    (regs [(1, 7)]).getV 1 ≠ (regs [(1, 7)]).getV 2 := by
  decide

theorem witness_LoadAndLogic :
    fieldOp 0x6A7F = 0x6#4 ∧ (fieldOp 0x8120 = 0x8#4 ∧ fieldN 0x8120 = 0x0#4) ∧ fieldN 0x8121 = 0x1#4 ∧
    fieldN 0x8122 = 0x2#4 ∧ fieldN 0x8123 = 0x3#4 ∧ fieldOp 0x8123 = 0x8#4 := by
  decide

theorem witness_AddImmediate : fieldOp 0x7202 = 0x7#4 := by decide

theorem witness_FlagWriters : (0 : Reg) ≠ 15 ∧ (14 : Reg) ≠ 15 := by decide

theorem witness_SubFlag_low :
    ∃ s t : State, (0 : Reg) ≠ 15 ∧ exec (.sub 0 1) s = .next t ∧ (s.getV 0).toNat = 0 ∧ (s.getV 1).toNat = 128 ∧
      (s.getV 0).toNat ≤ (s.getV 1).toNat + 127 ∧ (s.getV 1).toNat ≤ (s.getV 0).toNat + 128 :=
  ⟨regs [(1, 128)], _, by decide, rfl, by decide, by decide, by decide, by decide⟩

theorem witness_SubFlag_high :
    ∃ s t : State, (0 : Reg) ≠ 15 ∧ exec (.sub 0 1) s = .next t ∧ (s.getV 0).toNat = 127 ∧ (s.getV 1).toNat = 0 ∧
      (s.getV 0).toNat ≤ (s.getV 1).toNat + 127 ∧ (s.getV 1).toNat ≤ (s.getV 0).toNat + 128 :=
  ⟨regs [(0, 127)], _, by decide, rfl, by decide, by decide, by decide, by decide⟩

theorem witness_LoadIndex : fieldOp 0xA2F0 = 0xA#4 := by decide

theorem witness_ByteAccess : Memory.wf State.reset.mem = true ∧ (0xFFF : Nat) ≤ 0xFFF ∧ (0xFFF : Nat) < 0x1000 := by decide

theorem witness_Bcd :
    Memory.wf (atI 0xFFD).mem = true ∧ (atI 0xFFD).i.toNat ≤ 0xFFD ∧ 0xFFE ≤ (atI 0xFFE).i.toNat ∧
    0xFFE ≤ (atI 0xFFFF).i.toNat := by
  decide

theorem witness_StoreRegisters :
    Memory.wf (atI 0xFF0).mem = true ∧ (atI 0xFF0).i.toNat + (15 : Reg).val ≤ 0xFFF ∧
    0xFFF < (atI 0xFF1).i.toNat + (15 : Reg).val ∧ (atI 0xFFF).i.toNat + (0 : Reg).val ≤ 0xFFF := by
  decide

theorem witness_LoadRegisters :
    (atI 0xFF0).i.toNat + (15 : Reg).val ≤ 0xFFF ∧ 0xFFF < (atI 0xFF1).i.toNat + (15 : Reg).val := by
  decide

theorem witness_StoreThenLoad :
    ∃ s t u : State, Memory.wf s.mem = true ∧ s.i.toNat + (15 : Reg).val ≤ 0xFFF ∧ exec (.stRegs 15) s = .next t ∧
      u.mem = t.mem ∧ u.i = t.i :=
  ⟨atI 0xFF0, _, _, by decide, by decide, rfl, rfl, rfl⟩

theorem witness_StoreIsSeen :
    ∃ s t : State, Memory.wf s.mem = true ∧ 1 ≤ (1 : Reg).val ∧ s.i.toNat + (1 : Reg).val ≤ 0xFFF ∧ s.i = s.pc ∧
      exec (.stRegs 1) s = .next t :=
  ⟨{ State.reset with i := 0xFFE, pc := 0xFFE }, _, by decide, by decide, by decide, rfl, rfl⟩

theorem witness_CanonicalMemories :
    Memory.wf [(0x300, 5)] = true ∧ Memory.wf (Memory.write [(0x300, 4)] 0x300 5) = true ∧
    ∀ a, Memory.read [(0x300, 5)] a = Memory.read (Memory.write [(0x300, 4)] 0x300 5) a :=
  ⟨by decide, by decide, fun _ => rfl⟩

theorem witness_Draw :
    (0 : Fin 16).val = 0 ∧ (atI 0xFF1).i.toNat + (15 : Fin 16).val - 1 ≤ 0xFFF ∧
    (1 ≤ (15 : Fin 16).val ∧ 0xFFF < (atI 0xFF2).i.toNat + (15 : Fin 16).val - 1) ∧
    (1 ≤ (1 : Fin 16).val ∧ 0xFFF < (atI 0x1000).i.toNat + (1 : Fin 16).val - 1) := by
  decide

theorem witness_Sprites : (List.replicate 15 (0xFF : Byte)).length ≤ 15 ∧ ([] : List Byte).length ≤ 15 := by decide

theorem witness_KeySkips : ((regs [(2, 15)]).getV 2).toNat < 16 ∧ 16 ≤ ((regs [(2, 16)]).getV 2).toNat := by decide

theorem witness_TimerRead : Fetches (sample 0xF107) (.ldVxDT 1) := fetches_sample (by decide)

theorem witness_TimerWrite : fieldOp 0xF015 = 0xF#4 ∧ fieldKK 0xF015 = 0x15#8 := by decide

theorem witness_KeyEvent : (hear State.reset (keyPressed 15)).inputs.keyEvent = some 15 := rfl

theorem witness_AccessMatrix :
    ∃ s t : State, OperandsInRange s (.stRegs 15) ∧ exec (.stRegs 15) s = .next t ∧ mayWriteV (.stRegs 15) 0 = false :=
  ⟨atI 0xFF0, _, by show _ ≤ _; decide, rfl, rfl⟩

theorem witness_AccessMatrix_bcd : ∃ s t : State, OperandsInRange s (.ldB 0) ∧ exec (.ldB 0) s = .next t :=
  ⟨atI 0xFFD, _, by show _ ≤ _; decide, rfl⟩

theorem witness_Faults_outOfRange : ¬ OperandsInRange (atSP 0) .ret := by show ¬ (_ ≤ _); decide

theorem witness_Faults_inRange : ∃ s t : State, OperandsInRange s .ret ∧ exec .ret s = .next t :=
  ⟨atSP 1, _, by show _ ≤ _; decide, rfl⟩

theorem witness_HostReaches : ∃ s t : State, readsHost (.drw 0 1 5) = false ∧ exec (.drw 0 1 5) s = .next t :=
  ⟨State.reset, _, rfl, rfl⟩

theorem witness_JumpToSelf :
    EndOfRun (sample 0x1200) ∧ EndOfRun { sample 0x1200 with pending := [idle] } ∧
    ∃ t, step { sample 0x1200 with pending := [idle] } = .next t ∧ t.run = .running := by
  have h : Fetches (sample 0x1200) (.jp 0x200) := fetches_sample (by decide)
  exact ⟨⟨0x200, h, rfl⟩, ⟨0x200, h, rfl⟩, _, rfl, rfl⟩

theorem witness_Construction :
    Config.font.length = 80 ∧ (List.replicate 3584 (0 : Byte)).length ≤ 3584 ∧
    3584 < (List.replicate 3585 (0 : Byte)).length := by
  rw [List.length_replicate, List.length_replicate]
  decide

theorem witness_StepKeepsTheInvariant : Inv State.reset ∧ ∃ t, step State.reset = .next t :=
  ⟨⟨rfl, by decide, by decide⟩, _, rfl⟩

theorem witness_ReachableStates :
    ∃ s t : State, State.construct Config.font [0x12, 0x00] = some s ∧
      Sys2Proof.core.run 1 { s with inputs := keyPressed 7, pending := [closing] } = .next t :=
  ⟨_, _, rfl, rfl⟩

end Sys2Proof.Tests
end

/-! PROOFS. The statements of 20_memory.md: byte accesses and the word placed at pc. -/

namespace Sys2Proof.Machine

/-! ## Stores of a run, read back and framed (R42, R46, R50) -/

/-- Byte `k` of a run stored at `a` is what the address `a + k` reads as. -/
theorem Memory.read_writeBytes_add {m : Memory} (hm : Memory.wf m = true) {a k : Nat} {bs : List Byte}
    (ha : a + bs.length ≤ Config.memSize) (hk : k < bs.length) :
    Memory.read (Memory.writeBytes m a bs) (a + k) = bs[k] := by
  rw [Memory.read_writeBytes hm a (a + k) bs ha, dif_pos (by omega)]
  simp

/-- Replacing the memory changes no other part. -/
theorem SameExcept.setMem (s : State) (m : Memory) : SameExcept [.mem] s (s.setMem m) := by
  intro p hp
  cases p with
  | mem => exact absurd (List.mem_singleton.2 rfl) hp
  | v => exact fun _ => rfl
  | host => exact ⟨rfl, rfl, rfl⟩
  | _ => rfl

/-- A run stored at `a` leaves every address outside it as it was. -/
theorem MemSameOutside.setMem_writeBytes (s : State) (a : Nat) (bs : List Byte) :
    MemSameOutside a bs.length s (s.setMem (Memory.writeBytes s.mem a bs)) :=
  fun _ hc => Memory.read_writeBytes_outside s.mem bs hc

/-! ## An access to one byte (R42) -/

theorem State.readByte_ok (s : State) {a : Nat} (ha : a ≤ 0xFFF) : s.readRun a 1 = .ok [Memory.read s.mem a] :=
  s.readRun_ok (.inr ha)

theorem State.readByte_error (s : State) {a : Nat} (ha : 0xFFF < a) : s.readRun a 1 = .error (.memOutOfBounds a) := by
  rw [s.readRun_error le_rfl ha, Nat.max_eq_left ha]

theorem State.writeByte_error (s : State) {a : Nat} (b : Byte) (ha : 0xFFF < a) :
    s.writeRun a [b] = .error (.memOutOfBounds a) := by
  rw [s.writeRun_error le_rfl ha, Nat.max_eq_left ha]

/-- A byte stored in the address space is what its address then reads as; no other byte and no other part changes. -/
theorem State.writeByte_ok (s : State) {a : Nat} (b : Byte) (hm : Memory.wf s.mem = true) (ha : a ≤ 0xFFF) :
    ∃ t, s.writeRun a [b] = .ok t ∧ Memory.read t.mem a = b ∧ MemSameOutside a 1 s t ∧ SameExcept [.mem] s t :=
  have hfit : a + [b].length ≤ Config.memSize := Nat.succ_le_succ ha
  ⟨_, s.writeRun_ok (.inr ha), Memory.read_writeBytes_add hm (k := 0) hfit Nat.one_pos,
    MemSameOutside.setMem_writeBytes s a [b], SameExcept.setMem s _⟩

/-- Settles O30: in the address space by the laws of a run of one byte, above it by its range check. -/
theorem byteAccessIsExact : Obligations.ByteAccessIsExact := by
  intro s a b hm
  refine ⟨fun ha => ⟨s.readByte_ok ha, s.writeByte_ok b hm ha⟩, fun ha => ?_⟩
  have hread := s.readByte_error ha
  have hwrite := s.writeByte_error b ha
  refine ⟨hread, hwrite, fun f => ?_, fun f => ?_⟩
  · rw [hread]; rfl
  · rw [hwrite]; rfl

/-! ## The word placed at pc (R43, R44) -/

theorem highByte_ofNat (w : Nat) : highByte (BitVec.ofNat 16 w) = BitVec.ofNat 8 (w / 256) := by
  apply BitVec.eq_of_toNat_eq
  simp only [highByte, BitVec.extractLsb'_toNat, BitVec.toNat_ofNat, Nat.shiftRight_eq_div_pow]
  omega

theorem lowByte_ofNat (w : Nat) : lowByte (BitVec.ofNat 16 w) = BitVec.ofNat 8 w := by
  apply BitVec.eq_of_toNat_eq
  simp only [lowByte, BitVec.extractLsb'_toNat, BitVec.toNat_ofNat, Nat.shiftRight_zero]
  omega

/-- Where pc leaves room for two bytes, placing a word is storing its two bytes at pc, high byte first. -/
theorem State.placeWord_eq (s : State) (w : Word) (hpc : s.pc.toNat ≤ 0xFFE) :
    s.placeWord w = s.setMem (Memory.writeBytes s.mem s.pc.toNat [highByte w, lowByte w]) := by
  rw [State.placeWord, memRange_ok (by omega)]

/-- A 16-bit number placed for the next fetch is stored at pc as its two bytes. -/
theorem State.withFetchWord_eq (s : State) (w : Nat) (hpc : s.pc.toNat ≤ 0xFFE) :
    s.withFetchWord 16 w =
      s.setMem (Memory.writeBytes s.mem s.pc.toNat [BitVec.ofNat 8 (w / 256), BitVec.ofNat 8 w]) := by
  have hmod : BitVec.ofNat 16 (w % 2 ^ 16) = BitVec.ofNat 16 w :=
    BitVec.eq_of_toNat_eq (by simp only [BitVec.toNat_ofNat, Nat.mod_mod])
  rw [State.withFetchWord, hmod, s.placeWord_eq _ hpc, highByte_ofNat, lowByte_ofNat]

/-- In range, the fetch answers the word at pc. -/
theorem State.fetch_eq_wordAtPc (s : State) (hpc : s.pc.toNat ≤ 0xFFE) : s.fetch = .ok s.wordAtPc :=
  s.fetch_ok hpc

/-- Settles O9: the placed word is its two bytes stored at pc, and the fetch reads those two bytes back. -/
theorem placedWordIsFetched : Obligations.PlacedWordIsFetched := by
  intro s w hm hpc
  rw [s.withFetchWord_eq w hpc]
  set bytes : List Byte := [BitVec.ofNat 8 (w / 256), BitVec.ofNat 8 w]
  set t := s.setMem (Memory.writeBytes s.mem s.pc.toNat bytes)
  have hfit : s.pc.toNat + bytes.length ≤ Config.memSize := Nat.add_le_add_right hpc 2
  have hhigh : Memory.read t.mem s.pc.toNat = BitVec.ofNat 8 (w / 256) :=
    Memory.read_writeBytes_add hm (k := 0) hfit Nat.two_pos
  have hlow : Memory.read t.mem (s.pc.toNat + 1) = BitVec.ofNat 8 w :=
    Memory.read_writeBytes_add hm hfit Nat.one_lt_two
  have hword : t.wordAtPc = BitVec.ofNat 16 w :=
    calc t.wordAtPc
      _ = bigEndian (BitVec.ofNat 8 (w / 256)) (BitVec.ofNat 8 w) := congrArg₂ bigEndian hhigh hlow
      _ = BitVec.ofNat 16 w := by rw [← highByte_ofNat, ← lowByte_ofNat, bigEndian_bytes]
  have hfetch : t.fetch = .ok (BitVec.ofNat 16 w) := hword ▸ t.fetch_eq_wordAtPc hpc
  exact ⟨hfetch, hword, hhigh, hlow, MemSameOutside.setMem_writeBytes s _ bytes, SameExcept.setMem s _⟩

end Sys2Proof.Machine

/-! PROOFS. The statements of 30_encoding.md: the decoder, the encoder, the opcode table, and the step of a fetched word. -/

namespace Sys2Proof

/-! ## The decoder, an equation per group and per instruction (R76)

The hypotheses are the fixed fields of the instruction's pattern. -/

section DecoderEquations

variable {w : Word}

theorem decodeWord_group0 (hop : fieldOp w = 0x0#4) : decodeWord w = decodeGroup0 w := by simp only [decodeWord, hop]
theorem decodeWord_group8 (hop : fieldOp w = 0x8#4) : decodeWord w = decodeGroup8 w := by simp only [decodeWord, hop]
theorem decodeWord_groupE (hop : fieldOp w = 0xE#4) : decodeWord w = decodeGroupE w := by simp only [decodeWord, hop]
theorem decodeWord_groupF (hop : fieldOp w = 0xF#4) : decodeWord w = decodeGroupF w := by simp [decodeWord, hop]

theorem decodeWord_group5 (hop : fieldOp w = 0x5#4) :
    decodeWord w = if fieldN w = 0#4 then some (.seReg (fieldX w) (fieldY w)) else none := by
  simp only [decodeWord, hop]
theorem decodeWord_group9 (hop : fieldOp w = 0x9#4) :
    decodeWord w = if fieldN w = 0#4 then some (.sneReg (fieldX w) (fieldY w)) else none := by
  simp only [decodeWord, hop]

theorem decodeWord_cls (hop : fieldOp w = 0x0#4) (ha : fieldNNN w = 0x0E0#12) : decodeWord w = some .cls := by
  simp [decodeWord_group0 hop, decodeGroup0, ha]
theorem decodeWord_ret (hop : fieldOp w = 0x0#4) (ha : fieldNNN w = 0x0EE#12) : decodeWord w = some .ret := by
  simp [decodeWord_group0 hop, decodeGroup0, ha]

theorem decodeWord_jp (hop : fieldOp w = 0x1#4) : decodeWord w = some (.jp (fieldNNN w)) := by
  simp only [decodeWord, hop]
theorem decodeWord_call (hop : fieldOp w = 0x2#4) : decodeWord w = some (.call (fieldNNN w)) := by
  simp only [decodeWord, hop]
theorem decodeWord_ldI (hop : fieldOp w = 0xA#4) : decodeWord w = some (.ldI (fieldNNN w)) := by
  simp only [decodeWord, hop]
theorem decodeWord_jpV0 (hop : fieldOp w = 0xB#4) : decodeWord w = some (.jpV0 (fieldNNN w)) := by
  simp only [decodeWord, hop]

theorem decodeWord_seImm (hop : fieldOp w = 0x3#4) : decodeWord w = some (.seImm (fieldX w) (fieldKK w)) := by
  simp only [decodeWord, hop]
theorem decodeWord_sneImm (hop : fieldOp w = 0x4#4) : decodeWord w = some (.sneImm (fieldX w) (fieldKK w)) := by
  simp only [decodeWord, hop]
theorem decodeWord_ldImm (hop : fieldOp w = 0x6#4) : decodeWord w = some (.ldImm (fieldX w) (fieldKK w)) := by
  simp only [decodeWord, hop]
theorem decodeWord_addImm (hop : fieldOp w = 0x7#4) : decodeWord w = some (.addImm (fieldX w) (fieldKK w)) := by
  simp only [decodeWord, hop]
theorem decodeWord_rnd (hop : fieldOp w = 0xC#4) : decodeWord w = some (.rnd (fieldX w) (fieldKK w)) := by
  simp only [decodeWord, hop]
theorem decodeWord_drw (hop : fieldOp w = 0xD#4) :
    decodeWord w = some (.drw (fieldX w) (fieldY w) (fieldN w).toFin) := by
  simp only [decodeWord, hop]

theorem decodeWord_seReg (hop : fieldOp w = 0x5#4) (hn : fieldN w = 0x0#4) :
    decodeWord w = some (.seReg (fieldX w) (fieldY w)) := by
  rw [decodeWord_group5 hop, if_pos hn]
theorem decodeWord_sneReg (hop : fieldOp w = 0x9#4) (hn : fieldN w = 0x0#4) :
    decodeWord w = some (.sneReg (fieldX w) (fieldY w)) := by
  rw [decodeWord_group9 hop, if_pos hn]

theorem decodeWord_ldReg (hop : fieldOp w = 0x8#4) (hn : fieldN w = 0x0#4) :
    decodeWord w = some (.ldReg (fieldX w) (fieldY w)) := by
  simp only [decodeWord_group8 hop, decodeGroup8, hn]
theorem decodeWord_orReg (hop : fieldOp w = 0x8#4) (hn : fieldN w = 0x1#4) :
    decodeWord w = some (.orReg (fieldX w) (fieldY w)) := by
  simp only [decodeWord_group8 hop, decodeGroup8, hn]
theorem decodeWord_andReg (hop : fieldOp w = 0x8#4) (hn : fieldN w = 0x2#4) :
    decodeWord w = some (.andReg (fieldX w) (fieldY w)) := by
  simp only [decodeWord_group8 hop, decodeGroup8, hn]
theorem decodeWord_xorReg (hop : fieldOp w = 0x8#4) (hn : fieldN w = 0x3#4) :
    decodeWord w = some (.xorReg (fieldX w) (fieldY w)) := by
  simp only [decodeWord_group8 hop, decodeGroup8, hn]
theorem decodeWord_addReg (hop : fieldOp w = 0x8#4) (hn : fieldN w = 0x4#4) :
    decodeWord w = some (.addReg (fieldX w) (fieldY w)) := by
  simp only [decodeWord_group8 hop, decodeGroup8, hn]
theorem decodeWord_sub (hop : fieldOp w = 0x8#4) (hn : fieldN w = 0x5#4) :
    decodeWord w = some (.sub (fieldX w) (fieldY w)) := by
  simp only [decodeWord_group8 hop, decodeGroup8, hn]
theorem decodeWord_shr (hop : fieldOp w = 0x8#4) (hn : fieldN w = 0x6#4) :
    decodeWord w = some (.shr (fieldX w) (fieldY w)) := by
  simp only [decodeWord_group8 hop, decodeGroup8, hn]
theorem decodeWord_subn (hop : fieldOp w = 0x8#4) (hn : fieldN w = 0x7#4) :
    decodeWord w = some (.subn (fieldX w) (fieldY w)) := by
  simp only [decodeWord_group8 hop, decodeGroup8, hn]
theorem decodeWord_shl (hop : fieldOp w = 0x8#4) (hn : fieldN w = 0xE#4) :
    decodeWord w = some (.shl (fieldX w) (fieldY w)) := by
  simp only [decodeWord_group8 hop, decodeGroup8, hn]

theorem decodeWord_skp (hop : fieldOp w = 0xE#4) (hk : fieldKK w = 0x9E#8) : decodeWord w = some (.skp (fieldX w)) := by
  simp [decodeWord_groupE hop, decodeGroupE, hk]
theorem decodeWord_sknp (hop : fieldOp w = 0xE#4) (hk : fieldKK w = 0xA1#8) : decodeWord w = some (.sknp (fieldX w)) := by
  simp [decodeWord_groupE hop, decodeGroupE, hk]

theorem decodeWord_ldVxDT (hop : fieldOp w = 0xF#4) (hk : fieldKK w = 0x07#8) :
    decodeWord w = some (.ldVxDT (fieldX w)) := by
  simp [decodeWord_groupF hop, decodeGroupF, hk]
theorem decodeWord_ldVxK (hop : fieldOp w = 0xF#4) (hk : fieldKK w = 0x0A#8) :
    decodeWord w = some (.ldVxK (fieldX w)) := by
  simp [decodeWord_groupF hop, decodeGroupF, hk]
theorem decodeWord_ldDTVx (hop : fieldOp w = 0xF#4) (hk : fieldKK w = 0x15#8) :
    decodeWord w = some (.ldDTVx (fieldX w)) := by
  simp [decodeWord_groupF hop, decodeGroupF, hk]
theorem decodeWord_addI (hop : fieldOp w = 0xF#4) (hk : fieldKK w = 0x1E#8) : decodeWord w = some (.addI (fieldX w)) := by
  simp [decodeWord_groupF hop, decodeGroupF, hk]
theorem decodeWord_ldF (hop : fieldOp w = 0xF#4) (hk : fieldKK w = 0x29#8) : decodeWord w = some (.ldF (fieldX w)) := by
  simp [decodeWord_groupF hop, decodeGroupF, hk]
theorem decodeWord_ldB (hop : fieldOp w = 0xF#4) (hk : fieldKK w = 0x33#8) : decodeWord w = some (.ldB (fieldX w)) := by
  simp [decodeWord_groupF hop, decodeGroupF, hk]
theorem decodeWord_stRegs (hop : fieldOp w = 0xF#4) (hk : fieldKK w = 0x55#8) :
    decodeWord w = some (.stRegs (fieldX w)) := by
  simp [decodeWord_groupF hop, decodeGroupF, hk]
theorem decodeWord_ldRegs (hop : fieldOp w = 0xF#4) (hk : fieldKK w = 0x65#8) :
    decodeWord w = some (.ldRegs (fieldX w)) := by
  simp [decodeWord_groupF hop, decodeGroupF, hk]

end DecoderEquations

/-! ## Every row of the table is decoded (R76) -/

/-- The decoder reads every word of the row's pattern as the row does. -/
def OpcodeRow.Decodes (r : OpcodeRow) : Prop := ∀ w, r.Matches w = true → decodeWord w = some (r.instr w)

section RowFormats

variable {f : Word → Instr}

theorem OpcodeRow.Decodes.of_op (op : BitVec 4) (h : ∀ {w}, fieldOp w = op → decodeWord w = some (f w)) :
    OpcodeRow.Decodes ⟨wordNNN op 0, 0xF000, f⟩ := fun w hw =>
  h (beq_iff_eq.1 ((matches_F000 w op).symm.trans hw))

theorem OpcodeRow.Decodes.of_op_n (op n : BitVec 4)
    (h : ∀ {w}, fieldOp w = op → fieldN w = n → decodeWord w = some (f w)) :
    OpcodeRow.Decodes ⟨wordXYN op 0 0 n, 0xF00F, f⟩ := fun w hw =>
  have ⟨hop, hn⟩ := Bool.and_eq_true_iff.1 ((matches_F00F w op n).symm.trans hw)
  h (beq_iff_eq.1 hop) (beq_iff_eq.1 hn)

theorem OpcodeRow.Decodes.of_op_kk (op : BitVec 4) (kk : Byte)
    (h : ∀ {w}, fieldOp w = op → fieldKK w = kk → decodeWord w = some (f w)) :
    OpcodeRow.Decodes ⟨wordXKK op 0 kk, 0xF0FF, f⟩ := fun w hw =>
  have ⟨hop, hk⟩ := Bool.and_eq_true_iff.1 ((matches_F0FF w op kk).symm.trans hw)
  h (beq_iff_eq.1 hop) (beq_iff_eq.1 hk)

theorem OpcodeRow.Decodes.of_nnn (nnn : Addr12)
    (h : ∀ {w}, fieldOp w = 0x0#4 → fieldNNN w = nnn → decodeWord w = some (f w)) :
    OpcodeRow.Decodes ⟨wordNNN 0 nnn, 0xFFFF, f⟩ := fun w hw =>
  have ⟨hop, ha⟩ := Bool.and_eq_true_iff.1 ((matches_FFFF w nnn).symm.trans hw)
  h (beq_iff_eq.1 hop) (beq_iff_eq.1 ha)

end RowFormats

theorem opcodeTableA_decodes : ∀ r ∈ opcodeTableA, r.Decodes := by
  simp only [opcodeTableA, List.forall_mem_cons]
  exact ⟨.of_nnn 0x0E0 decodeWord_cls, .of_nnn 0x0EE decodeWord_ret, .of_op 0x1 decodeWord_jp,
    .of_op 0x2 decodeWord_call, .of_op 0x3 decodeWord_seImm, .of_op 0x4 decodeWord_sneImm,
    .of_op_n 0x5 0x0 decodeWord_seReg, .of_op 0x6 decodeWord_ldImm, .of_op 0x7 decodeWord_addImm,
    List.forall_mem_nil _⟩

theorem opcodeTableB_decodes : ∀ r ∈ opcodeTableB, r.Decodes := by
  simp only [opcodeTableB, List.forall_mem_cons]
  exact ⟨.of_op_n 0x8 0x0 decodeWord_ldReg, .of_op_n 0x8 0x1 decodeWord_orReg, .of_op_n 0x8 0x2 decodeWord_andReg,
    .of_op_n 0x8 0x3 decodeWord_xorReg, .of_op_n 0x8 0x4 decodeWord_addReg, .of_op_n 0x8 0x5 decodeWord_sub,
    .of_op_n 0x8 0x6 decodeWord_shr, .of_op_n 0x8 0x7 decodeWord_subn, .of_op_n 0x8 0xE decodeWord_shl,
    .of_op_n 0x9 0x0 decodeWord_sneReg, List.forall_mem_nil _⟩

theorem opcodeTableC_decodes : ∀ r ∈ opcodeTableC, r.Decodes := by
  simp only [opcodeTableC, List.forall_mem_cons]
  exact ⟨.of_op 0xA decodeWord_ldI, .of_op 0xB decodeWord_jpV0, .of_op 0xC decodeWord_rnd, .of_op 0xD decodeWord_drw,
    .of_op_kk 0xE 0x9E decodeWord_skp, .of_op_kk 0xE 0xA1 decodeWord_sknp, .of_op_kk 0xF 0x07 decodeWord_ldVxDT,
    .of_op_kk 0xF 0x0A decodeWord_ldVxK, .of_op_kk 0xF 0x15 decodeWord_ldDTVx, .of_op_kk 0xF 0x1E decodeWord_addI,
    .of_op_kk 0xF 0x29 decodeWord_ldF, .of_op_kk 0xF 0x33 decodeWord_ldB, .of_op_kk 0xF 0x55 decodeWord_stRegs,
    .of_op_kk 0xF 0x65 decodeWord_ldRegs, List.forall_mem_nil _⟩

theorem opcodeTable_decodes {r : OpcodeRow} (hr : r ∈ opcodeTable) : r.Decodes :=
  List.forall_mem_append.2 ⟨List.forall_mem_append.2 ⟨opcodeTableA_decodes, opcodeTableB_decodes⟩,
    opcodeTableC_decodes⟩ r hr

/-! ## Every instruction has its row (R76) -/

theorem exists_row_of_instr : ∀ i : Instr, Laws.TableRow.Statement i
  | .cls => Laws.TableRow.cls
  | .ret => Laws.TableRow.ret
  | .jp nnn => Laws.TableRow.jp nnn
  | .call nnn => Laws.TableRow.call nnn
  | .seImm x kk => Laws.TableRow.seImm x kk
  | .sneImm x kk => Laws.TableRow.sneImm x kk
  | .seReg x y => Laws.TableRow.seReg x y
  | .ldImm x kk => Laws.TableRow.ldImm x kk
  | .addImm x kk => Laws.TableRow.addImm x kk
  | .ldReg x y => Laws.TableRow.ldReg x y
  | .orReg x y => Laws.TableRow.orReg x y
  | .andReg x y => Laws.TableRow.andReg x y
  | .xorReg x y => Laws.TableRow.xorReg x y
  | .addReg x y => Laws.TableRow.addReg x y
  | .sub x y => Laws.TableRow.sub x y
  | .shr x y => Laws.TableRow.shr x y
  | .subn x y => Laws.TableRow.subn x y
  | .shl x y => Laws.TableRow.shl x y
  | .sneReg x y => Laws.TableRow.sneReg x y
  | .ldI nnn => Laws.TableRow.ldI nnn
  | .jpV0 nnn => Laws.TableRow.jpV0 nnn
  | .rnd x kk => Laws.TableRow.rnd x kk
  | .drw x y n => Laws.TableRow.drw x y n
  | .skp x => Laws.TableRow.skp x
  | .sknp x => Laws.TableRow.sknp x
  | .ldVxDT x => Laws.TableRow.ldVxDT x
  | .ldVxK x => Laws.TableRow.ldVxK x
  | .ldDTVx x => Laws.TableRow.ldDTVx x
  | .addI x => Laws.TableRow.addI x
  | .ldF x => Laws.TableRow.ldF x
  | .ldB x => Laws.TableRow.ldB x
  | .stRegs x => Laws.TableRow.stRegs x
  | .ldRegs x => Laws.TableRow.ldRegs x

/-! ## The two round trips (R70, R72, R76) -/

theorem decodeWord_encodeWord (i : Instr) : decodeWord (encodeWord i) = some i := by
  obtain ⟨r, hr, hmatch, hinstr⟩ := exists_row_of_instr i
  rw [opcodeTable_decodes hr _ hmatch, hinstr]

section WordFromFields

variable {w : Word} {op : BitVec 4}

theorem wordNNN_of_fields {nnn : Addr12} (hop : fieldOp w = op) (ha : fieldNNN w = nnn) : wordNNN op nnn = w := by
  rw [← hop, ← ha, wordNNN_fields]

theorem wordXKK_of_fields {kk : Byte} (hop : fieldOp w = op) (hk : fieldKK w = kk) : wordXKK op (fieldX w) kk = w := by
  rw [← hop, ← hk, wordXKK_fields]

theorem wordXYN_of_fields {n : BitVec 4} (hop : fieldOp w = op) (hn : fieldN w = n) :
    wordXYN op (fieldX w) (fieldY w) n = w := by
  rw [← hop, ← hn, wordXYN_fields]

end WordFromFields

section EncodeOfDecode

variable {w : Word} {i : Instr}

theorem encodeWord_of_decodeGroup0 (hop : fieldOp w = 0x0#4) (h : decodeGroup0 w = some i) : encodeWord i = w := by
  unfold decodeGroup0 at h
  split_ifs at h with h1 h2 <;> cases h
  · exact wordNNN_of_fields hop h1
  · exact wordNNN_of_fields hop h2

/-- Every arm of group 8 keeps `x` and `y` and fixes `n`. -/
theorem encodeWord_of_decodeGroup8 (hop : fieldOp w = 0x8#4) (h : decodeGroup8 w = some i) : encodeWord i = w := by
  unfold decodeGroup8 at h
  split at h <;> cases h <;> exact wordXYN_of_fields hop ‹_›

/-- Every arm of group E keeps `x` and fixes `kk`. -/
theorem encodeWord_of_decodeGroupE (hop : fieldOp w = 0xE#4) (h : decodeGroupE w = some i) : encodeWord i = w := by
  unfold decodeGroupE at h
  split_ifs at h <;> cases h <;> exact wordXKK_of_fields hop ‹_›

/-- Every arm of group F keeps `x` and fixes `kk`. -/
theorem encodeWord_of_decodeGroupF (hop : fieldOp w = 0xF#4) (h : decodeGroupF w = some i) : encodeWord i = w := by
  unfold decodeGroupF at h
  split_ifs at h <;> cases h <;> exact wordXKK_of_fields hop ‹_›

theorem encodeWord_of_decodeWord (h : decodeWord w = some i) : encodeWord i = w := by
  unfold decodeWord at h
  split at h
  next hop => exact encodeWord_of_decodeGroup0 hop h
  next hop => cases h; exact wordNNN_of_fields hop rfl
  next hop => cases h; exact wordNNN_of_fields hop rfl
  next hop => cases h; exact wordXKK_of_fields hop rfl
  next hop => cases h; exact wordXKK_of_fields hop rfl
  next hop => split_ifs at h with hn; cases h; exact wordXYN_of_fields hop hn
  next hop => cases h; exact wordXKK_of_fields hop rfl
  next hop => cases h; exact wordXKK_of_fields hop rfl
  next hop => exact encodeWord_of_decodeGroup8 hop h
  next hop => split_ifs at h with hn; cases h; exact wordXYN_of_fields hop hn
  next hop => cases h; exact wordNNN_of_fields hop rfl
  next hop => cases h; exact wordNNN_of_fields hop rfl
  next hop => cases h; exact wordXKK_of_fields hop rfl
  next hop => cases h; exact wordXYN_of_fields hop rfl
  next hop => exact encodeWord_of_decodeGroupE hop h
  next =>
    have hop : fieldOp w = 0xF#4 := fieldOp_eq_F fun k hk => by interval_cases k <;> assumption
    exact encodeWord_of_decodeGroupF hop h

end EncodeOfDecode

/-- The byte decoder answers what the word decoder does, and leaves the bytes after the first two. -/
theorem decode_eq_ok_iff {hi lo : Byte} {rest rest' : List Byte} {i : Instr} :
    decode (hi :: lo :: rest) = .ok (i, rest') ↔ decodeWord (bigEndian hi lo) = some i ∧ rest' = rest := by
  rw [decode]
  rcases decodeWord (bigEndian hi lo) with _ | j
  · simp
  · simp [eq_comm]

/-! ## The patterns of two rows (R76) -/

/-- Rows whose values differ on a bit that both masks fix have no word in common. -/
theorem OpcodeRow.not_matches_both {r r' : OpcodeRow} (h : r.value &&& r'.mask ≠ r'.value &&& r.mask) (w : Word) :
    ¬ (r.Matches w = true ∧ r'.Matches w = true) := by
  rintro ⟨hr, hr'⟩
  have hv : w &&& r.mask = r.value := beq_iff_eq.1 hr
  have hv' : w &&& r'.mask = r'.value := beq_iff_eq.1 hr'
  apply h
  rw [← hv, ← hv', BitVec.and_assoc, BitVec.and_assoc, BitVec.and_comm r.mask]

theorem opcodeTable_pairwise_values_differ :
    opcodeTable.Pairwise fun r r' => r.value &&& r'.mask ≠ r'.value &&& r.mask := by
  decide

/-! ## The unknown words of a group (R78) -/

theorem nibble_cases (b : BitVec 4) :
    b = 0x0#4 ∨ b = 0x1#4 ∨ b = 0x2#4 ∨ b = 0x3#4 ∨ b = 0x4#4 ∨ b = 0x5#4 ∨ b = 0x6#4 ∨ b = 0x7#4 ∨
    b = 0x8#4 ∨ b = 0x9#4 ∨ b = 0xA#4 ∨ b = 0xB#4 ∨ b = 0xC#4 ∨ b = 0xD#4 ∨ b = 0xE#4 ∨ b = 0xF#4 := by
  decide +revert

section UnknownWords

variable (w : Word)

theorem decodeGroup0_eq_none_iff : decodeGroup0 w = none ↔ fieldNNN w ≠ 0x0E0#12 ∧ fieldNNN w ≠ 0x0EE#12 := by
  unfold decodeGroup0
  split_ifs <;> simp [*]

theorem decodeGroup8_eq_none_iff :
    decodeGroup8 w = none ↔ fieldN w ∈ [0x8#4, 0x9#4, 0xA#4, 0xB#4, 0xC#4, 0xD#4, 0xF#4] := by
  rcases nibble_cases (fieldN w) with
    h | h | h | h | h | h | h | h | h | h | h | h | h | h | h | h <;>
    simp [decodeGroup8, h]

theorem decodeGroupE_eq_none_iff : decodeGroupE w = none ↔ fieldKK w ∉ [0x9E#8, 0xA1#8] := by
  unfold decodeGroupE
  split_ifs <;> simp [*]

theorem decodeGroupF_eq_none_iff :
    decodeGroupF w = none ↔ fieldKK w ∉ [0x07#8, 0x0A#8, 0x15#8, 0x1E#8, 0x29#8, 0x33#8, 0x55#8, 0x65#8] := by
  unfold decodeGroupF
  split_ifs <;> simp [*]

end UnknownWords

end Sys2Proof

namespace Sys2Proof.Machine

/-! ## The settled statements of the encoding -/

/-- Settles O1: the instruction's row of the table matches its word, and the decoder reads every row. -/
theorem decodeInvertsEncode : Obligations.DecodeInvertsEncode := by
  intro i
  have hword := decodeWord_encodeWord i
  refine ⟨hword, fun rest => decode_eq_ok_iff.2 ⟨?_, rfl⟩⟩
  rw [bigEndian_bytes, hword]

/-- Settles O2: every arm of the decoder keeps or fixes all 16 bits. -/
theorem encodeInvertsDecode : Obligations.EncodeInvertsDecode := by
  intro hi lo rest rest' i h
  obtain ⟨hword, hrest⟩ := decode_eq_ok_iff.1 h
  refine ⟨?_, hrest⟩
  rw [encode, encodeWord_of_decodeWord hword, highByte_bigEndian, lowByte_bigEndian]

/-- Settles O3: a decoded word is its instruction's, which has a row; and the decoder reads every row. -/
theorem decoderIsTheOpcodeTable : Obligations.DecoderIsTheOpcodeTable := by
  intro w i
  constructor
  · intro h
    obtain rfl := encodeWord_of_decodeWord h
    exact exists_row_of_instr i
  · rintro ⟨r, hr, hmatch, rfl⟩
    exact opcodeTable_decodes hr w hmatch

/-- Settles O4: any two rows differ on a bit that both masks fix. -/
theorem opcodePatternsAreDisjoint : Obligations.OpcodePatternsAreDisjoint :=
  ⟨rfl, opcodeTable_pairwise_values_differ.imp OpcodeRow.not_matches_both⟩

/-- Settles O5, group by group of the primary opcode. -/
theorem unknownWordsAreThoseOfTheTable : Obligations.UnknownWordsAreThoseOfTheTable := by
  intro w
  rcases nibble_cases (fieldOp w) with h | h | h | h | h | h | h | h | h | h | h | h | h | h | h | h
  · simp [decodeWord_group0 h, decodeGroup0_eq_none_iff, h]
  · simp [decodeWord_jp h, h]
  · simp [decodeWord_call h, h]
  · simp [decodeWord_seImm h, h]
  · simp [decodeWord_sneImm h, h]
  · simp [decodeWord_group5 h, h]
  · simp [decodeWord_ldImm h, h]
  · simp [decodeWord_addImm h, h]
  · simp [decodeWord_group8 h, decodeGroup8_eq_none_iff, h]
  · simp [decodeWord_group9 h, h]
  · simp [decodeWord_ldI h, h]
  · simp [decodeWord_jpV0 h, h]
  · simp [decodeWord_rnd h, h]
  · simp [decodeWord_drw h, h]
  · simp [decodeWord_groupE h, decodeGroupE_eq_none_iff, h]
  · simp [decodeWord_groupF h, decodeGroupF_eq_none_iff, h]

/-- Settles O6: the decoder evaluates on each word. -/
theorem sampleWordsDecode : Obligations.SampleWordsDecode := by
  unfold Obligations.SampleWordsDecode
  decide

/-! ## The parts of a cycle before the operation (R74, R180) -/

/-- The operation starts after the tick and the advance. -/
theorem State.atOperation_eq (s : State) : s.atOperation = s.tick.advance := by
  have hdt : (s.dt - if s.dt = 0 then 0 else 1) = if s.dt = 0 then 0 else s.dt - 1 := by
    split
    next h => rw [h]; rfl
    next => rfl
  rw [State.atOperation, hdt]
  rfl

/-- The tick decrements the timer, saturating at zero. -/
theorem State.tick_dt_toNat (s : State) : s.tick.dt.toNat = s.dt.toNat - 1 := by
  rw [State.tick_dt]
  split
  next h => simp [h]
  next h => bv_omega

/-- The advance adds 2, without wrapping where the fetch was in range (R75). -/
theorem State.advance_pc_toNat (s : State) (hpc : s.pc.toNat ≤ 0xFFE) : s.advance.pc.toNat = s.pc.toNat + 2 := by
  rw [State.advance_pc]
  bv_omega

theorem SameExcept.tick_advance (s : State) : SameExcept [.pc, .dt] s s.tick.advance := by
  intro p hp
  cases p with
  | pc | dt => simp at hp
  | v => exact fun _ => rfl
  | mem => exact ⟨rfl, fun _ => rfl⟩
  | host => exact ⟨rfl, rfl, rfl⟩
  | _ => rfl

/-- The cycle that fetches an instruction is its operation. -/
theorem Fetches.cycle_eq {s : State} {i : Instr} (h : Fetches s i) : cycle s = exec i s.atOperation := by
  obtain ⟨-, hpc, hword⟩ := h
  rw [cycle_instr s i hpc hword, State.atOperation_eq]

/-- The step that fetches an instruction is what the host makes of its operation. -/
theorem Fetches.step_eq {s : State} {i : Instr} (h : Fetches s i) : step s = settle s (exec i s.atOperation) := by
  rw [step_running s h.1, h.cycle_eq]

/-- Settles O7: the two clauses are the two answers `settle` gives for them. -/
theorem stepRunsTheFetchedInstruction : Obligations.StepRunsTheFetchedInstruction := by
  intro s i h
  refine ⟨fun t ht => ?_, fun hwait => ?_⟩
  · rw [h.step_eq, ht, settle]
  · rw [h.step_eq, hwait, settle]

/-- Settles O8: the cycle of an unknown word is the tick and the advance. -/
theorem unknownWordIsNoOperation : Obligations.UnknownWordIsNoOperation := by
  intro s _ hpc hword
  exact ⟨_, cycle_unknown s hpc hword, s.tick.advance_pc_toNat hpc, s.tick_dt_toNat, SameExcept.tick_advance s⟩

end Sys2Proof.Machine

/-! PROOFS. The statements of 40_control.md: the jump and the skips on registers and immediates. -/

namespace Sys2Proof.Machine

/-- The 12 bits of a target are zero-extended: the address keeps its value (R73). -/
theorem zextAddr_toNat (nnn : Addr12) : (zextAddr nnn).toNat = nnn.toNat :=
  BitVec.toNat_setWidth_of_le (by decide)

/-! ## What the control operations answer (R102, R104 to R107) -/

theorem exec_jp (nnn : Addr12) (s : State) : exec (.jp nnn) s = .next (s.setPc (zextAddr nnn)) := rfl

theorem exec_seImm (x : Reg) (kk : Byte) (s : State) :
    exec (.seImm x kk) s = .next (s.skipIf (s.getV x == kk)) := rfl

theorem exec_sneImm (x : Reg) (kk : Byte) (s : State) :
    exec (.sneImm x kk) s = .next (s.skipIf (s.getV x != kk)) := rfl

theorem exec_seReg (x y : Reg) (s : State) :
    exec (.seReg x y) s = .next (s.skipIf (s.getV x == s.getV y)) := rfl

theorem exec_sneReg (x y : Reg) (s : State) :
    exec (.sneReg x y) s = .next (s.skipIf (s.getV x != s.getV y)) := rfl

/-! ## The settled statements of control transfer -/

/-- Settles O16: the word's group is JP's own, and the jump is one write to pc. -/
theorem jumpSetsPc : Obligations.JumpSetsPc :=
  ⟨fun _ => decodeWord_jp, fun nnn s =>
    ⟨s.setPc (zextAddr nnn), exec_jp nnn s, zextAddr_toNat nnn, SameExcept.setPc s _⟩⟩

/-- Settles O19: each operation answers a skip on a Boolean test, and the test decides the condition. -/
theorem skipsFollowTheirCondition : Obligations.SkipsFollowTheirCondition := by
  refine ⟨fun _ => decodeWord_seImm, fun _ => decodeWord_sneImm, fun _ => decodeWord_group5,
    fun _ => decodeWord_group9, fun x y kk s => ⟨?_, ?_, ?_, ?_⟩⟩
  · exact .of_exec beq_iff_eq (exec_seImm x kk s)
  · exact .of_exec bne_iff_ne (exec_sneImm x kk s)
  · exact .of_exec beq_iff_eq (exec_seReg x y s)
  · exact .of_exec bne_iff_ne (exec_sneReg x y s)

end Sys2Proof.Machine


/-! PROOFS. The statements of 41_alu.md: the loads, the logic operations and the immediate add. -/

namespace Sys2Proof.Machine

/-- The sum of two bytes is their exact sum, wrapped (R122). -/
theorem byte_add_eq_ofNat (b c : Byte) : b + c = BitVec.ofNat 8 ((b.toNat + c.toNat) % 256) := by
  apply BitVec.eq_of_toNat_eq
  rw [BitVec.toNat_add, BitVec.toNat_ofNat, Nat.mod_mod]

/-! ## What the operations without a flag answer (R121 to R126) -/

theorem exec_ldImm (x : Reg) (kk : Byte) (s : State) : exec (.ldImm x kk) s = .next (s.setV x kk) := rfl

theorem exec_addImm (x : Reg) (kk : Byte) (s : State) : exec (.addImm x kk) s = .next (s.setV x (s.getV x + kk)) := rfl

theorem exec_ldReg (x y : Reg) (s : State) : exec (.ldReg x y) s = .next (s.setV x (s.getV y)) := rfl

theorem exec_orReg (x y : Reg) (s : State) : exec (.orReg x y) s = .next (s.setV x (s.getV x ||| s.getV y)) := rfl

theorem exec_andReg (x y : Reg) (s : State) : exec (.andReg x y) s = .next (s.setV x (s.getV x &&& s.getV y)) := rfl

theorem exec_xorReg (x y : Reg) (s : State) : exec (.xorReg x y) s = .next (s.setV x (s.getV x ^^^ s.getV y)) := rfl

/-! ## The settled statements of the loads, the logic operations and the immediate add -/

/-- Settles O21: each word is its instruction's, and each operation is one write to `x`, so VF is kept unless `x` is VF. -/
theorem loadAndLogicWriteVx : Obligations.LoadAndLogicWriteVx := by
  refine ⟨fun _ => decodeWord_ldImm, fun _ => decodeWord_ldReg, fun _ => decodeWord_orReg, fun _ => decodeWord_andReg,
    fun _ => decodeWord_xorReg, fun x y kk s => ⟨?_, ?_, ?_, ?_, ?_⟩⟩
  · exact .of_exec (exec_ldImm x kk s)
  · exact .of_exec (exec_ldReg x y s)
  · exact .of_exec (exec_orReg x y s)
  · exact .of_exec (exec_andReg x y s)
  · exact .of_exec (exec_xorReg x y s)

/-- Settles O22: the operation is one write of the byte sum, which is the exact sum wrapped. -/
theorem addImmediateWraps : Obligations.AddImmediateWraps := by
  refine ⟨fun _ => decodeWord_addImm, fun x kk s => ?_⟩
  rw [← byte_add_eq_ofNat]
  exact .of_exec (exec_addImm x kk s)

end Sys2Proof.Machine

/-! PROOFS. The statements of 42_index_memory.md: the load of the index register. -/

namespace Sys2Proof.Machine

/-- Writing I changes no other part. -/
theorem SameExcept.setI (s : State) (a : Word) : SameExcept [.i] s (s.setI a) := by
  intro p hp
  cases p with
  | i => exact absurd (List.mem_singleton.2 rfl) hp
  | v => exact fun _ => rfl
  | mem => exact ⟨rfl, fun _ => rfl⟩
  | host => exact ⟨rfl, rfl, rfl⟩
  | _ => rfl

/-- `LD I, nnn` answers one write of the zero-extended address to I (R141). -/
theorem exec_ldI (nnn : Addr12) (s : State) : exec (.ldI nnn) s = .next (s.setI (zextAddr nnn)) := rfl

/-- Settles O28: the word's group is `LD I`'s own, and the operation is one write to I. -/
theorem loadIndexSetsI : Obligations.LoadIndexSetsI :=
  ⟨fun _ => decodeWord_ldI, fun nnn s =>
    ⟨s.setI (zextAddr nnn), exec_ldI nnn s, zextAddr_toNat nnn, SameExcept.setI s _⟩⟩

end Sys2Proof.Machine

/-! PROOFS. The statements of 43_display.md: the clear, and the collision of a draw. -/

namespace Sys2Proof.Machine

/-! ## The clear (R161, R166) -/

/-- `CLS` answers the blank framebuffer and one update (R166). -/
theorem exec_cls (s : State) : exec .cls s = .next (s.setFb FrameBuffer.blank).signalUpdate := rfl

/-- Replacing the framebuffer and signalling the update changes no other part. -/
theorem SameExcept.setFb_signalUpdate (s : State) (fb : FrameBuffer) :
    SameExcept [.fb, .fbUpdates] s (s.setFb fb).signalUpdate := by
  intro p hp
  cases p with
  | fb | fbUpdates => simp at hp
  | v => exact fun _ => rfl
  | mem => exact ⟨rfl, fun _ => rfl⟩
  | host => exact ⟨rfl, rfl, rfl⟩
  | _ => rfl

/-- Settles O37: the operation writes the blank framebuffer, whose every pixel is off, and signals once. -/
theorem clearTurnsEveryCellOff : Obligations.ClearTurnsEveryCellOff :=
  ⟨decodeWord_cls rfl rfl, fun s =>
    ⟨_, exec_cls s, FrameBuffer.pixel_blank, rfl, SameExcept.setFb_signalUpdate s _⟩⟩

/-! ## Toggling a set of cells, each once (R163 to R165)

A blit is a sequence of toggles. As long as no cell is toggled twice, the sequence acts as one exclusive or with the set of its
cells, and its collision speaks of the framebuffer before all of it (R165 a, b). -/

/-- From `p` to `q` exactly the cells of `S` are inverted, and the collision is also noted when one of them was on. -/
structure Toggles (S : Fin 64 → Fin 32 → Prop) (p q : FrameBuffer × Bool) : Prop where
  pixel_iff : ∀ cx cy, FrameBuffer.pixel q.1 cx cy = true ↔ ¬ (FrameBuffer.pixel p.1 cx cy = true ↔ S cx cy)
  collision_iff : q.2 = true ↔ p.2 = true ∨ ∃ cx cy, S cx cy ∧ FrameBuffer.pixel p.1 cx cy = true

namespace Toggles

variable {S T U : Fin 64 → Fin 32 → Prop} {p q r : FrameBuffer × Bool}

/-- No cell toggled: nothing changes. -/
theorem refl_of_empty (hS : ∀ cx cy, ¬ S cx cy) (p : FrameBuffer × Bool) : Toggles S p p where
  pixel_iff cx cy := by simp [hS]
  collision_iff := by simp [hS]

/-- Toggles of disjoint sets, one after the other, are one toggle of their union: the second finds its cells as the first did. -/
theorem trans (hpq : Toggles S p q) (hqr : Toggles T q r) (hdisj : ∀ cx cy, S cx cy → ¬ T cx cy)
    (hU : ∀ cx cy, U cx cy ↔ S cx cy ∨ T cx cy) : Toggles U p r where
  pixel_iff cx cy := by
    have hd := hdisj cx cy
    rw [hqr.pixel_iff, hpq.pixel_iff, hU]
    tauto
  collision_iff := by
    have hkept : ∀ cx cy, T cx cy → (FrameBuffer.pixel q.1 cx cy = true ↔ FrameBuffer.pixel p.1 cx cy = true) := by
      intro cx cy hT
      have hd := hdisj cx cy
      rw [hpq.pixel_iff]
      tauto
    have hT : (∃ cx cy, T cx cy ∧ FrameBuffer.pixel q.1 cx cy = true) ↔
        ∃ cx cy, T cx cy ∧ FrameBuffer.pixel p.1 cx cy = true :=
      exists_congr fun cx => exists_congr fun cy => and_congr_right (hkept cx cy)
    simp only [hqr.collision_iff, hpq.collision_iff, hT, hU, or_and_right, exists_or, or_assoc]

/-- A collision noted along the way is a cell that went from on to off (R164). -/
theorem collision_iff_went_off (h : Toggles S p q) (hp : p.2 = false) :
    q.2 = true ↔ ∃ cx cy, FrameBuffer.pixel p.1 cx cy = true ∧ FrameBuffer.pixel q.1 cx cy = false := by
  have hcell : ∀ cx cy, S cx cy ∧ FrameBuffer.pixel p.1 cx cy = true ↔
      FrameBuffer.pixel p.1 cx cy = true ∧ FrameBuffer.pixel q.1 cx cy = false := by
    intro cx cy
    rw [← Bool.not_eq_true (FrameBuffer.pixel q.1 cx cy), h.pixel_iff]
    tauto
  simp [h.collision_iff, hp, hcell]

end Toggles

/-! ## The blit toggles each cell of the sprite's mask once (R165 a, b) -/

/-- Bit `i` of a row drawn at `(x0, y)` is 1 and lands on the cell `(cx, cy)` (R163). -/
def BitHits (x0 y : Nat) (row : Byte) (i : Nat) (cx : Fin 64) (cy : Fin 32) : Prop :=
  row.getLsbD (7 - i) = true ∧ cx = wrapX (x0 + i) ∧ cy = wrapY y

/-- One of the listed bits of a row lands on the cell. -/
def BitsHit (x0 y : Nat) (row : Byte) (l : List Nat) (cx : Fin 64) (cy : Fin 32) : Prop :=
  ∃ i ∈ l, BitHits x0 y row i cx cy

theorem blitPixel_toggles (x y : Nat) (p : FrameBuffer × Bool) :
    Toggles (fun cx cy => cx = wrapX x ∧ cy = wrapY y) p (blitPixel x y p) where
  pixel_iff cx cy := by
    rw [pixel_blitPixel]
    split
    next h => simp [h]
    next h => simp only [h, iff_false, not_not]
  collision_iff := by
    simp [collision_blitPixel]

theorem blitBit_toggles (x0 y : Nat) (row : Byte) (p : FrameBuffer × Bool) (i : Nat) :
    Toggles (BitHits x0 y row i) p (blitBit x0 y row p i) := by
  unfold blitBit BitHits
  split
  next h => simpa only [h, true_and] using blitPixel_toggles (x0 + i) y p
  next h => exact .refl_of_empty (fun _ _ hit => h hit.1) p

/-- Two bits of a row land on two cells. -/
theorem BitHits.index_unique {x0 y : Nat} {row : Byte} {i j : Nat} {cx : Fin 64} {cy : Fin 32} (hi : i < 8) (hj : j < 8)
    (h : BitHits x0 y row i cx cy) (h' : BitHits x0 y row j cx cy) : i = j := by
  obtain ⟨-, hxi, -⟩ := h
  obtain ⟨-, hxj, -⟩ := h'
  exact wrapX_inj hi hj (hxi.symm.trans hxj)

theorem foldl_blitBit_toggles (x0 y : Nat) (row : Byte) {l : List Nat} (hl : l.Nodup) (h8 : ∀ i ∈ l, i < 8)
    (p : FrameBuffer × Bool) : Toggles (BitsHit x0 y row l) p (l.foldl (blitBit x0 y row) p) := by
  induction l generalizing p with
  | nil => exact .refl_of_empty (by simp [BitsHit]) p
  | cons i l ih =>
    obtain ⟨hil, hl⟩ := List.nodup_cons.1 hl
    obtain ⟨hi, h8⟩ := List.forall_mem_cons.1 h8
    refine (blitBit_toggles x0 y row p i).trans (ih hl h8 _) ?_ (by simp [BitsHit])
    rintro cx cy hit ⟨j, hj, hit'⟩
    exact hil (hit.index_unique hi (h8 j hj) hit' ▸ hj)

theorem mem_bitPositions {i : Nat} : i ∈ bitPositions ↔ i < 8 := by
  simp only [bitPositions, List.mem_cons, List.not_mem_nil, or_false]
  omega

theorem blitRow_toggles (x0 y : Nat) (row : Byte) (p : FrameBuffer × Bool) :
    Toggles (BitsHit x0 y row bitPositions) p (blitRow x0 y row p) :=
  foldl_blitBit_toggles x0 y row (by decide) (fun _ => mem_bitPositions.1) p

/-- The mask of a sprite is that of its first row, and that of the other rows drawn one row lower. -/
theorem spriteHits_cons (x0 y : Nat) (row : Byte) (rows : List Byte) (cx : Fin 64) (cy : Fin 32) :
    SpriteHits x0 y (row :: rows) cx cy ↔ BitsHit x0 y row bitPositions cx cy ∨ SpriteHits x0 (y + 1) rows cx cy := by
  simp only [BitsHit, BitHits, wrapX_eq_iff, wrapY_eq_iff]
  constructor
  · rintro ⟨_ | j, i, hj, hi, hbit, hx, hy⟩
    · exact .inl ⟨i, mem_bitPositions.2 hi, hbit, hx, hy⟩
    · exact .inr ⟨j, i, Nat.lt_of_succ_lt_succ hj, hi, hbit, hx, by omega⟩
  · rintro (⟨i, hi, hbit, hx, hy⟩ | ⟨j, i, hj, hi, hbit, hx, hy⟩)
    · exact ⟨0, i, Nat.succ_pos _, mem_bitPositions.1 hi, hbit, hx, hy⟩
    · exact ⟨j + 1, i, Nat.succ_lt_succ hj, hi, hbit, hx, by omega⟩

/-- A sprite of at most 32 rows reaches no row of cells twice. -/
theorem not_spriteHits_of_bitsHit {x0 y : Nat} {row : Byte} {rows : List Byte} (hlen : rows.length + 1 ≤ 32) {l : List Nat}
    {cx : Fin 64} {cy : Fin 32} (h : BitsHit x0 y row l cx cy) : ¬ SpriteHits x0 (y + 1) rows cx cy := by
  rintro ⟨j, -, hj, -, -, -, hyj⟩
  obtain ⟨-, -, -, -, hy⟩ := h
  rw [wrapY_eq_iff] at hy
  omega

theorem blitRows_toggles (x0 y : Nat) {sprite : List Byte} (hlen : sprite.length ≤ 32) (p : FrameBuffer × Bool) :
    Toggles (SpriteHits x0 y sprite) p (blitRows x0 y sprite p) := by
  induction sprite generalizing y p with
  | nil => exact .refl_of_empty (by simp [SpriteHits]) p
  | cons row rows ih =>
    exact (blitRow_toggles x0 y row p).trans (ih (y + 1) (Nat.le_of_succ_le hlen) _)
      (fun _ _ => not_spriteHits_of_bitsHit hlen) (spriteHits_cons x0 y row rows)

/-- A draw toggles the cells of the sprite's mask, from no collision (R165 b). -/
theorem FrameBuffer.draw_toggles (fb : FrameBuffer) (x0 y0 : Nat) {sprite : List Byte} (hlen : sprite.length ≤ 32) :
    Toggles (SpriteHits x0 y0 sprite) (fb, false) (FrameBuffer.draw fb x0 y0 sprite) :=
  blitRows_toggles x0 y0 hlen (fb, false)

/-- Settles O40: the draw toggles each cell of its mask once, so a cell it met on is a cell it turned off. -/
theorem collisionMeansACellWentOff : Obligations.CollisionMeansACellWentOff :=
  fun fb x0 y0 _ hlen =>
    (FrameBuffer.draw_toggles fb x0 y0 (hlen.trans (by decide))).collision_iff_went_off rfl

end Sys2Proof.Machine

/-! PROOFS. The statements of 44_input_timer.md: the tick of the delay timer and the write to it. -/

namespace Sys2Proof.Machine

/-! ## Frames -/

/-- Writing the timer changes no other part. -/
theorem SameExcept.setDT (s : State) (b : Byte) : SameExcept [.dt] s (s.setDT b) := by
  intro p hp
  cases p with
  | dt => exact absurd (List.mem_singleton.2 rfl) hp
  | v => exact fun _ => rfl
  | mem => exact ⟨rfl, fun _ => rfl⟩
  | host => exact ⟨rfl, rfl, rfl⟩
  | _ => rfl

/-- A frame may allow more parts to change. -/
theorem SameExcept.mono {ps qs : List Part} {s t : State} (hsub : ps ⊆ qs) (h : SameExcept ps s t) : SameExcept qs s t :=
  fun p hp => h p fun hmem => hp (hsub hmem)

/-! ## The shared operations leave the timer alone -/

@[simp] theorem State.skipIf_dt (s : State) (c : Bool) : (s.skipIf c).dt = s.dt := by
  rw [State.skipIf_eq, State.setPc_dt]

theorem State.push_dt {s t : State} {a : Word} (h : s.push a = .ok t) : t.dt = s.dt := by
  rw [State.push] at h
  split at h
  next => cases h; rfl
  next => cases h

theorem State.pop_dt {s : State} {p : Word × State} (h : s.pop = .ok p) : p.2.dt = s.dt := by
  rw [State.pop] at h
  split at h
  next => cases h; rfl
  next => cases h

theorem State.writeRun_dt {s t : State} {addr : Nat} {bs : List Byte} (h : s.writeRun addr bs = .ok t) : t.dt = s.dt := by
  rcases s.writeRun_cases addr bs with ⟨-, hok⟩ | ⟨-, -, herr⟩
  · cases hok.symm.trans h
    rfl
  · cases herr.symm.trans h

/-! ## Only `Fx15` writes the timer (R180, R185) -/

/-- A next state of the outcome, a fault taken included, holds the timer of `s`. -/
def KeepsTimer (s : State) (o : Outcome) : Prop := ∀ t, o = .next t → t.dt = s.dt

theorem KeepsTimer.next {s u : State} (h : u.dt = s.dt) : KeepsTimer s (.next u) := by
  rintro _ ⟨⟩
  exact h

/-- A checked access keeps the timer when what follows it does: taking the fault writes RUN alone (R206). -/
theorem KeepsTimer.orRaise {α : Type} {s : State} {r : Except FaultKind α} {f : α → State}
    (h : ∀ a, r = .ok a → (f a).dt = s.dt) : KeepsTimer s (s.orRaise r f) := by
  cases r with
  | ok a => exact .next (h a rfl)
  | error k => exact .next (s.raise_dt k)

theorem execLdVxK_keepsTimer (x : Reg) (s : State) : KeepsTimer s (execLdVxK x s) := by
  rw [execLdVxK]
  split
  next => exact .next rfl
  next => rintro _ ⟨⟩

/-- `LD DT, Vx` answers one write of Vx to the timer (R185). -/
theorem exec_ldDTVx (x : Reg) (s : State) : exec (.ldDTVx x) s = .next (s.setDT (s.getV x)) := rfl

/-- Every operation but that of `Fx15` keeps the timer. -/
theorem exec_keepsTimer {i : Instr} (hi : ∀ x, i ≠ .ldDTVx x) (s : State) : KeepsTimer s (exec i s) := by
  cases i with
  | ldDTVx x => exact absurd rfl (hi x)
  | seImm | sneImm | seReg | sneReg => exact .next (s.skipIf_dt _)
  | skp | sknp => exact .orRaise fun _ _ => s.skipIf_dt _
  | ret => exact .orRaise fun p hp => (p.2.setPc_dt _).trans (State.pop_dt hp)
  | call => exact .orRaise fun t ht => (t.setPc_dt _).trans (State.push_dt ht)
  | ldB | stRegs => exact .orRaise fun _ ht => State.writeRun_dt ht
  | drw | ldRegs => exact .orRaise fun _ _ => rfl
  | ldVxK x => exact execLdVxK_keepsTimer x s
  | _ => exact .next rfl

/-- A running block's cycle that fetches no `Fx15` leaves the timer where the tick left it: a fetch fault, an unknown word and
an operation alike. -/
theorem cycle_dt {s t : State} (hrun : s.run = .running) (hno : ∀ x, ¬ Fetches s (.ldDTVx x)) (h : cycle s = .next t) :
    t.dt = s.tick.dt := by
  rcases cycle_cases s with ⟨-, hfault⟩ | ⟨-, hnop⟩ | ⟨i, hpc, hword, hexec⟩
  · cases hfault.symm.trans h
    rfl
  · cases hnop.symm.trans h
    rfl
  · have hi : ∀ x, i ≠ .ldDTVx x := by
      rintro x rfl
      exact hno x ⟨hrun, hpc, hword⟩
    exact exec_keepsTimer hi s.tick.advance t (hexec.symm.trans h)

/-! ## The settled statements of the timer -/

/-- Settles O14: every cycle begins with the tick, no operation but that of `Fx15` writes the timer after it, and a step that
answers a next state starts from RUNNING. -/
theorem everyCycleTicksTheTimer : Obligations.EveryCycleTicksTheTimer := by
  intro s
  refine ⟨?_, ?_, fun i h => h.cycle_eq, fun hrun hno t h => ?_, fun hrun t h => ?_⟩
  · rw [State.atOperation_eq, State.advance_dt, State.tick_dt_toNat]
  · rw [State.atOperation_eq]
    exact (SameExcept.tick_advance s).mono (by decide)
  · rw [cycle_dt hrun hno h, State.tick_dt_toNat]
  · exact hrun (step_cases h).1

/-- Settles O44: the word's group and low byte are `LD DT`'s own, and the operation is one write to the timer. -/
theorem timerWriteReplacesTheTick : Obligations.TimerWriteReplacesTheTick :=
  ⟨fun _ => decodeWord_ldDTVx, fun x s => ⟨_, exec_ldDTVx x s, s.setDT_dt _, SameExcept.setDT s _⟩⟩

end Sys2Proof.Machine

/-! PROOFS. What an operation answers: in range its update, out of range its fault (60_exceptions.md R200,
70_reset_and_hazards.md R242), and the statements about all operations that follow from it. -/

namespace Sys2Proof.Machine

theorem bcdDigits_length (b : Byte) : (bcdDigits b).length = 3 := rfl

/-! ## The checked operations, in range and out of range -/

section CheckedOperations

variable {s : State} {x y : Reg} {n : Fin 16} {nnn : Addr12}

/-- An operation whose checked access answers a fault takes it. -/
theorem Raises.of_error {α : Type} {i : Instr} {k : FaultKind} {r : Except FaultKind α} {f : α → State}
    (hr : r = .error k) (hexec : exec i s = s.orRaise r f) : Raises i s k := by
  rw [Raises, hexec, hr, State.orRaise_error, State.raise, State.setRun]

theorem exec_ret_ok (h : 0 < s.sp.val) :
    exec .ret s = .next (State.setPc { s with sp := ⟨s.sp.val - 1, by omega⟩ } s.stack[s.sp.val - 1]) := by
  rw [exec, execRet, s.pop_ok h, State.orRaise_ok]

theorem exec_ret_fault (h : s.sp.val = 0) : Raises .ret s (.stackOutOfBounds 0) :=
  .of_error (s.pop_empty h) rfl

theorem exec_call_ok (h : s.sp.val < 16) :
    exec (.call nnn) s = .next (State.setPc
      { s with stack := s.stack.set s.sp.val s.pc, sp := ⟨s.sp.val + 1, by omega⟩ } (zextAddr nnn)) := by
  rw [exec, execCall, s.push_ok s.pc h, State.orRaise_ok]

theorem exec_call_fault (h : s.sp.val = 16) : Raises (.call nnn) s (.stackOutOfBounds 16) :=
  .of_error (s.push_full s.pc h) rfl

theorem exec_drw_ok (h : n.val = 0 ∨ s.i.toNat + n.val - 1 ≤ 0xFFF) :
    exec (.drw x y n) s =
      .next (s.drawSprite (s.getV x) (s.getV y) (Memory.readBytes s.mem s.i.toNat n.val)) := by
  rw [exec, execDrw, State.base, s.readRun_ok h, State.orRaise_ok]

theorem exec_drw_fault (h1 : 1 ≤ n.val) (h : 0xFFF < s.i.toNat + n.val - 1) :
    Raises (.drw x y n) s (.memOutOfBounds (max s.i.toNat 0x1000)) :=
  .of_error (s.readRun_error h1 h) rfl

theorem exec_ldB_ok (h : s.i.toNat ≤ 0xFFD) :
    exec (.ldB x) s = .next (s.setMem (Memory.writeBytes s.mem s.i.toNat (bcdDigits (s.getV x)))) := by
  have hlen := bcdDigits_length (s.getV x)
  rw [exec, execLdB, State.base, s.writeRun_ok (.inr (by omega)), State.orRaise_ok, id]

theorem exec_ldB_fault (h : 0xFFE ≤ s.i.toNat) : Raises (.ldB x) s (.memOutOfBounds (max s.i.toNat 0x1000)) := by
  have hlen := bcdDigits_length (s.getV x)
  exact .of_error (s.writeRun_error (by omega) (by omega)) rfl

theorem exec_stRegs_ok (h : s.i.toNat + x.val ≤ 0xFFF) :
    exec (.stRegs x) s = .next (s.setMem (Memory.writeBytes s.mem s.i.toNat (s.regRun x))) := by
  have hlen := s.length_regRun x
  rw [exec, execStRegs, State.base, s.writeRun_ok (.inr (by omega)), State.orRaise_ok, id]

theorem exec_stRegs_fault (h : 0xFFF < s.i.toNat + x.val) :
    Raises (.stRegs x) s (.memOutOfBounds (max s.i.toNat 0x1000)) := by
  have hlen := s.length_regRun x
  exact .of_error (s.writeRun_error (by omega) (by omega)) rfl

theorem exec_ldRegs_ok (h : s.i.toNat + x.val ≤ 0xFFF) :
    exec (.ldRegs x) s = .next (s.loadRegRun (Memory.readBytes s.mem s.i.toNat (x.val + 1))) := by
  rw [exec, execLdRegs, State.base, s.readRun_ok (.inr h), State.orRaise_ok]

theorem exec_ldRegs_fault (h : 0xFFF < s.i.toNat + x.val) :
    Raises (.ldRegs x) s (.memOutOfBounds (max s.i.toNat 0x1000)) :=
  .of_error (s.readRun_error (Nat.le_add_left 1 _) h) rfl

theorem exec_skp_ok (h : (s.getV x).toNat < 16) :
    exec (.skp x) s = .next (s.skipIf s.inputs.keys[(s.getV x).toNat]) := by
  rw [exec, execSkp, s.keyDown_ok _ h, State.orRaise_ok]

theorem exec_skp_fault (h : 16 ≤ (s.getV x).toNat) : Raises (.skp x) s (.keyIndex (s.getV x).toNat) :=
  .of_error (s.keyDown_error _ h) rfl

theorem exec_sknp_ok (h : (s.getV x).toNat < 16) :
    exec (.sknp x) s = .next (s.skipIf (!s.inputs.keys[(s.getV x).toNat])) := by
  rw [exec, execSknp, s.keyDown_ok _ h, State.orRaise_ok]

theorem exec_sknp_fault (h : 16 ≤ (s.getV x).toNat) : Raises (.sknp x) s (.keyIndex (s.getV x).toNat) :=
  .of_error (s.keyDown_error _ h) rfl

end CheckedOperations

/-! ## The operation that waits (R184) -/

theorem exec_ldVxK_event {s : State} {k : Fin 16} (x : Reg) (h : s.inputs.keyEvent = some k) :
    exec (.ldVxK x) s = .next (s.setV x (BitVec.ofNat 8 k.val)) := by
  rw [exec, execLdVxK, h]

theorem exec_ldVxK_wait {s : State} (x : Reg) (h : s.inputs.keyEvent = none) :
    exec (.ldVxK x) s = .fault .awaitingKey := by
  rw [exec, execLdVxK, h]

/-- Where `Fx0A` completes, it writes one register. -/
theorem exec_ldVxK_next {s t : State} {x : Reg} (h : exec (.ldVxK x) s = .next t) : ∃ b, t = s.setV x b := by
  rcases hk : s.inputs.keyEvent with _ | k
  · cases (exec_ldVxK_wait x hk).symm.trans h
  · cases (exec_ldVxK_event x hk).symm.trans h
    exact ⟨_, rfl⟩

/-! ## Out of range every operation takes its fault (R200, R242) -/

theorem exec_outOfRange {i : Instr} {s : State} (h : ¬ OperandsInRange s i) :
    ∃ k, operandFault s i = some k ∧ Raises i s k := by
  cases i with
  | call nnn =>
    have hsp : s.sp.val = 16 := le_antisymm (Nat.le_of_lt_succ s.sp.isLt) (not_le.1 h)
    exact ⟨_, rfl, exec_call_fault hsp⟩
  | ret => exact ⟨_, rfl, exec_ret_fault (Nat.lt_one_iff.1 (not_le.1 h))⟩
  | drw x y n =>
    obtain ⟨hn, hi⟩ := not_or.1 h
    exact ⟨_, rfl, exec_drw_fault (Nat.one_le_iff_ne_zero.2 hn) (not_le.1 hi)⟩
  | ldB x => exact ⟨_, rfl, exec_ldB_fault (not_le.1 h)⟩
  | stRegs x => exact ⟨_, rfl, exec_stRegs_fault (not_le.1 h)⟩
  | ldRegs x => exact ⟨_, rfl, exec_ldRegs_fault (not_le.1 h)⟩
  | skp x => exact ⟨_, rfl, exec_skp_fault (not_le.1 h)⟩
  | sknp x => exact ⟨_, rfl, exec_sknp_fault (not_le.1 h)⟩
  | _ => exact absurd trivial h

/-! ## The invariant (R15) -/

/-- A new pc within the bound of R15 keeps the invariant. -/
theorem Inv.setPc {s : State} {a : Word} (h : Inv s) (ha : a.toNat ≤ 0x10FE) : Inv (s.setPc a) :=
  ⟨h.1, ha, h.2.2⟩

/-- A skip from the bound that the fetch and the advance leave stays within that of R15. -/
theorem Inv.skipIf {s : State} (c : Bool) (h : Inv s) (hpc : s.pc.toNat ≤ 0x1000) : Inv (s.skipIf c) := by
  cases c with
  | false => exact h
  | true => exact h.setPc (by bv_omega)

/-- A run stored in the address space keeps memory canonical, and so the invariant. -/
theorem Inv.setMem_writeBytes {s : State} {a : Nat} {bs : List Byte} (h : Inv s) (ha : a + bs.length ≤ Config.memSize) :
    Inv (s.setMem (Memory.writeBytes s.mem a bs)) :=
  ⟨Memory.wf_writeBytes bs h.1 ha, h.2⟩

theorem zextByte_toNat (b : Byte) : (zextByte b).toNat = b.toNat :=
  BitVec.toNat_setWidth_of_le (by decide)

/-- JP V0 alone can pass 0x1000: the largest address is 0xFFF + 0xFF (R108). -/
theorem offsetTarget_toNat (nnn : Addr12) (b : Byte) : (offsetTarget nnn b).toNat = nnn.toNat + b.toNat := by
  have hn := nnn.isLt
  have hb := b.isLt
  rw [offsetTarget, BitVec.toNat_add, zextAddr_toNat, zextByte_toNat]
  omega

/-- CALL pushes an address within the bound of R15. -/
theorem toNat_le_of_stack_set {stack : Vector Word 16} {k : Nat} (hk : k < 16) {a : Word} (ha : a.toNat ≤ 0x1000)
    (h : ∀ j : Fin 16, (stack[j.val]).toNat ≤ 0x1000) (j : Fin 16) : ((stack.set k a)[j.val]).toNat ≤ 0x1000 := by
  rw [Vector.getElem_set]
  split
  · exact ha
  · exact h j

/-- Every operation keeps the invariant, from the bound on pc that the fetch and the advance leave. -/
theorem exec_keeps_inv {i : Instr} {s t : State} (hs : Inv s) (hpc : s.pc.toNat ≤ 0x1000) (h : exec i s = .next t) :
    Inv t := by
  by_cases hr : OperandsInRange s i
  · cases i with
    | jp nnn =>
      cases h
      exact hs.setPc (by rw [zextAddr_toNat]; omega)
    | jpV0 nnn =>
      cases h
      exact hs.setPc (by rw [offsetTarget_toNat]; omega)
    | call nnn =>
      have hsp : s.sp.val < 16 := Nat.lt_succ_of_le hr
      cases (exec_call_ok hsp).symm.trans h
      exact ⟨hs.1, by rw [State.setPc_pc, zextAddr_toNat]; omega, toNat_le_of_stack_set hsp hpc hs.2.2⟩
    | ret =>
      have hpop := hs.2.2 ⟨s.sp.val - 1, by omega⟩
      cases (exec_ret_ok hr).symm.trans h
      exact ⟨hs.1, hpop.trans (by decide), hs.2.2⟩
    | seImm | sneImm | seReg | sneReg =>
      cases h
      exact hs.skipIf _ hpc
    | skp x =>
      cases (exec_skp_ok (Nat.lt_succ_of_le hr)).symm.trans h
      exact hs.skipIf _ hpc
    | sknp x =>
      cases (exec_sknp_ok (Nat.lt_succ_of_le hr)).symm.trans h
      exact hs.skipIf _ hpc
    | ldB x =>
      cases (exec_ldB_ok hr).symm.trans h
      exact hs.setMem_writeBytes (Nat.add_le_add_right hr 3)
    | stRegs x =>
      cases (exec_stRegs_ok hr).symm.trans h
      exact hs.setMem_writeBytes (by rw [s.length_regRun]; exact Nat.succ_le_succ hr)
    | drw x y n =>
      cases (exec_drw_ok hr).symm.trans h
      exact hs
    | ldRegs x =>
      cases (exec_ldRegs_ok hr).symm.trans h
      exact hs
    | ldVxK x =>
      obtain ⟨b, rfl⟩ := exec_ldVxK_next h
      exact hs
    | _ =>
      cases h
      exact hs
  · obtain ⟨k, -, hk⟩ := exec_outOfRange hr
    cases hk.symm.trans h
    exact hs

/-- Every cycle keeps the invariant. -/
theorem cycle_keeps_inv {s t : State} (hs : Inv s) (h : cycle s = .next t) : Inv t := by
  rcases cycle_cases s with ⟨-, hfault⟩ | ⟨hpc, hnop⟩ | ⟨i, hpc, -, hexec⟩
  · cases hfault.symm.trans h
    exact hs
  · have hadv := s.advance_pc_toNat hpc
    cases hnop.symm.trans h
    exact ⟨hs.1, hadv.trans_le (by omega), hs.2.2⟩
  · have hadv : s.tick.advance.pc.toNat ≤ 0x1000 := (s.advance_pc_toNat hpc).trans_le (by omega)
    have hop : Inv s.tick.advance := ⟨hs.1, hadv.trans (by decide), hs.2.2⟩
    exact exec_keeps_inv hop hadv (hexec.symm.trans h)

/-- Settles O54: a cycle keeps the invariant, and the host's turn and a wait touch none of its parts. -/
theorem stepKeepsTheInvariant : Obligations.StepKeepsTheInvariant := by
  intro s u hs h
  obtain ⟨-, ⟨t, ht, rfl⟩ | ⟨-, rfl⟩⟩ := step_cases h
  · have hinv : Inv t := cycle_keeps_inv hs ht
    exact hinv
  · exact hs

end Sys2Proof.Machine

/-! PROOFS. The statements about all operations: the result, the access matrix, the faults, and the reach of the host. -/

namespace Sys2Proof.Machine

/-! ## Frames one after the other -/

section Frames

variable {ps qs : List Part} {p : Part} {s t u : State}

theorem Part.Same.trans (h : p.Same s t) (h' : p.Same t u) : p.Same s u := by
  cases p with
  | v => exact fun r => (h' r).trans (h r)
  | mem => exact ⟨h'.1.trans h.1, fun a => (h'.2 a).trans (h.2 a)⟩
  | host => exact ⟨h'.1.trans h.1, h'.2.1.trans h.2.1, h'.2.2.trans h.2.2⟩
  | _ => exact Eq.trans h' h

/-- What two changes one after the other leave alone is what both leave alone. -/
theorem SameExcept.trans (h : SameExcept ps s t) (h' : SameExcept qs t u) : SameExcept (ps ++ qs) s u := fun p hp =>
  (h p fun hm => hp (List.mem_append_left _ hm)).trans (h' p fun hm => hp (List.mem_append_right _ hm))

/-- A part that is the same after all need not be listed. -/
theorem SameExcept.of_cons (h : SameExcept (p :: ps) s t) (hp : p.Same s t) : SameExcept ps s t := by
  intro q hq
  by_cases hqp : q = p
  · exact hqp ▸ hp
  · exact h q (List.not_mem_cons_of_ne_of_not_mem hqp hq)

end Frames

/-! ## The frames of the updates -/

/-- What holds of every part, listed. -/
theorem Part.forall_iff {P : Part → Prop} : (∀ p, P p) ↔
    P .v ∧ P .pc ∧ P .i ∧ P .dt ∧ P .sp ∧ P .stack ∧ P .mem ∧ P .fb ∧ P .run ∧ P .fbUpdates ∧ P .host := by
  refine ⟨fun h => by simp only [h, and_self], fun h p => ?_⟩
  cases p <;> tauto

section UpdateFrames

variable (s : State)

theorem SameExcept.skipIf (c : Bool) : SameExcept [.pc] s (s.skipIf c) := by
  rw [State.skipIf_eq]
  exact .setPc s _

theorem SameExcept.loadRegRun (bs : List Byte) : SameExcept [.v] s (s.loadRegRun bs) := by
  simp [SameExcept, Part.forall_iff, Part.Same, State.getV]

/-- A draw writes VF, then the framebuffer, which it signals. -/
theorem SameExcept.drawSprite (vx vy : Byte) (sprite : List Byte) :
    SameExcept [.v, .fb, .fbUpdates] s (s.drawSprite vx vy sprite) :=
  (SameExcept.setV s 15 _).trans (.setFb_signalUpdate (s.setFlag _) _)

theorem SameExcept.setSp (sp : Fin 17) : SameExcept [.sp] s { s with sp := sp } := by
  simp [SameExcept, Part.forall_iff, Part.Same, State.getV]

theorem SameExcept.setStack (stack : Vector Word 16) : SameExcept [.stack] s { s with stack := stack } := by
  simp [SameExcept, Part.forall_iff, Part.Same, State.getV]

/-- A return pops the stack, leaving its entries, and jumps. -/
theorem SameExcept.pop_setPc (sp : Fin 17) (a : Word) : SameExcept [.pc, .sp] s (State.setPc { s with sp := sp } a) :=
  ((SameExcept.setSp s sp).trans (.setPc _ a)).mono (by decide)

/-- A call pushes onto the stack and jumps. -/
theorem SameExcept.push_setPc (stack : Vector Word 16) (sp : Fin 17) (a : Word) :
    SameExcept [.pc, .sp, .stack] s (State.setPc { s with stack := stack, sp := sp } a) :=
  (((SameExcept.setStack s stack).trans (.setSp _ sp)).trans (.setPc _ a)).mono (by decide)

end UpdateFrames

/-! ## The access matrix (R12, R23) -/

/-- An operation in range changes no part but those of its row. -/
theorem exec_frame {i : Instr} {s t : State} (hr : OperandsInRange s i) (h : exec i s = .next t) :
    SameExcept (writtenParts i) s t := by
  cases i with
  | cls =>
    cases h
    exact .setFb_signalUpdate s _
  | ret =>
    cases (exec_ret_ok hr).symm.trans h
    exact .pop_setPc s _ _
  | call nnn =>
    cases (exec_call_ok (Nat.lt_succ_of_le hr)).symm.trans h
    exact .push_setPc s _ _ _
  | jp | jpV0 =>
    cases h
    exact .setPc s _
  | seImm | sneImm | seReg | sneReg =>
    cases h
    exact .skipIf s _
  | skp x =>
    cases (exec_skp_ok (Nat.lt_succ_of_le hr)).symm.trans h
    exact .skipIf s _
  | sknp x =>
    cases (exec_sknp_ok (Nat.lt_succ_of_le hr)).symm.trans h
    exact .skipIf s _
  | ldImm | addImm | ldReg | orReg | andReg | xorReg | rnd | ldVxDT =>
    cases h
    exact .setV s _ _
  | ldVxK x =>
    obtain ⟨b, rfl⟩ := exec_ldVxK_next h
    exact .setV s x b
  | addReg | sub | shr | subn | shl =>
    cases h
    exact .setFlagThenV s _ _ _
  | ldRegs x =>
    cases (exec_ldRegs_ok hr).symm.trans h
    exact .loadRegRun s _
  | drw x y n =>
    cases (exec_drw_ok hr).symm.trans h
    exact .drawSprite s _ _ _
  | ldI | addI | ldF =>
    cases h
    exact .setI s _
  | ldDTVx =>
    cases h
    exact .setDT s _
  | ldB x =>
    cases (exec_ldB_ok hr).symm.trans h
    exact .setMem s _
  | stRegs x =>
    cases (exec_stRegs_ok hr).symm.trans h
    exact .setMem s _

/-- An operation in range changes no V register but those of its row. -/
theorem exec_regs_frame {i : Instr} {s t : State} (hr : OperandsInRange s i) (h : exec i s = .next t) {r : Reg}
    (hw : mayWriteV i r = false) : t.getV r = s.getV r := by
  cases i with
  | ldImm | addImm | ldReg | orReg | andReg | xorReg | rnd | ldVxDT =>
    cases h
    exact s.getV_setV_ne _ (beq_eq_false_iff_ne.1 hw)
  | ldVxK x =>
    obtain ⟨b, rfl⟩ := exec_ldVxK_next h
    exact s.getV_setV_ne b (beq_eq_false_iff_ne.1 hw)
  | addReg | sub | shr | subn | shl =>
    obtain ⟨hx, h15⟩ := Bool.or_eq_false_iff.1 hw
    cases h
    rw [State.getV_setFlagThenV, if_neg (beq_eq_false_iff_ne.1 hx), if_neg (beq_eq_false_iff_ne.1 h15)]
  | drw x y n =>
    cases (exec_drw_ok hr).symm.trans h
    rw [State.getV_drawSprite, if_neg (beq_eq_false_iff_ne.1 hw)]
  | ldRegs x =>
    have hx : x.val < r.val := not_le.1 (of_decide_eq_false hw)
    cases (exec_ldRegs_ok hr).symm.trans h
    rw [State.getV_loadRegRun, dif_neg (by rw [Memory.length_readBytes]; omega)]
  | _ => exact exec_frame hr h .v (by simp [writtenParts]) r

/-- An operation in range changes no byte of memory outside the run that its row stores. -/
theorem exec_mem_frame {i : Instr} {s t : State} (hr : OperandsInRange s i) (h : exec i s = .next t) :
    MemSameOutside s.base (storedLength i) s t := by
  cases i with
  | ldB x =>
    cases (exec_ldB_ok hr).symm.trans h
    exact .setMem_writeBytes s _ (bcdDigits (s.getV x))
  | stRegs x =>
    cases (exec_stRegs_ok hr).symm.trans h
    have hrun := MemSameOutside.setMem_writeBytes s s.i.toNat (s.regRun x)
    rwa [State.length_regRun] at hrun
  | _ => exact fun a _ => (exec_frame hr h .mem (by simp [writtenParts])).2 a

/-- Settles O47: the three frames of an operation in range. -/
theorem accessMatrixIsRespected : Obligations.AccessMatrixIsRespected :=
  fun _ _ _ hr h => ⟨exec_frame hr h, fun _ => exec_regs_frame hr h, exec_mem_frame hr h⟩

/-! ## Results and faults (R200, R242) -/

/-- Settles O48: out of range by the table of faults; in range RUN is no part that a row writes. -/
theorem faultsAreExactlyTheListed : Obligations.FaultsAreExactlyTheListed := by
  refine fun i s => ⟨exec_outOfRange, fun hr t h => ?_⟩
  have hrun : Part.run ∉ writtenParts i := by cases i <;> simp [writtenParts]
  exact exec_frame hr h .run hrun

/-- Going on after a checked access answers a next state, a fault taken included. -/
theorem State.exists_orRaise {α : Type} (s : State) (r : Except FaultKind α) (f : α → State) :
    ∃ t, s.orRaise r f = .next t := by
  cases r with
  | ok a => exact ⟨_, s.orRaise_ok a f⟩
  | error k => exact ⟨_, s.orRaise_error k f⟩

/-- Settles O46: an operation without a check answers its update, a checked one its update or its fault, and the key wait alone
asks for an event. -/
theorem everyOperationHasAResult : Obligations.EveryOperationHasAResult := by
  intro i s
  cases i with
  | ret | call | drw | skp | sknp | ldB | stRegs | ldRegs => exact .inl (s.exists_orRaise _ _)
  | ldVxK x =>
    rcases hk : s.inputs.keyEvent with _ | k
    · exact .inr ⟨⟨x, rfl⟩, rfl, exec_ldVxK_wait x hk⟩
    · exact .inl ⟨_, exec_ldVxK_event x hk⟩
  | _ => exact .inl ⟨_, rfl⟩

/-! ## The reach of the host (R23, R25) -/

/-- The state with the host's side replaced. -/
def State.withHost (s : State) (inp : HostInputs) (pend : List HostInputs) (n : Nat) : State :=
  { s with inputs := inp, pending := pend, turn := n }

section HostSide

variable (s : State) (inp : HostInputs) (pend : List HostInputs) (n : Nat)

theorem State.skipIf_withHost (c : Bool) : (s.withHost inp pend n).skipIf c = (s.skipIf c).withHost inp pend n := by
  cases c <;> rfl

theorem operandsInRange_withHost (i : Instr) : OperandsInRange (s.withHost inp pend n) i ↔ OperandsInRange s i := by
  cases i <;> exact Iff.rfl

theorem operandFault_withHost (i : Instr) : operandFault (s.withHost inp pend n) i = operandFault s i := by
  cases i <;> rfl

end HostSide

/-- Settles O49: range and fault do not look at the host's side, and in range neither does an update. -/
theorem hostReachesOnlyFourInstructions : Obligations.HostReachesOnlyFourInstructions := by
  intro i s t inp pend n hi h
  show exec i (s.withHost inp pend n) = .next (t.withHost inp pend n)
  by_cases hr : OperandsInRange s i
  · have hr' := (operandsInRange_withHost s inp pend n i).2 hr
    cases i with
    | rnd | skp | sknp | ldVxK => cases hi
    | ret =>
      cases (exec_ret_ok hr).symm.trans h
      exact exec_ret_ok hr'
    | call nnn =>
      cases (exec_call_ok (Nat.lt_succ_of_le hr)).symm.trans h
      exact exec_call_ok (Nat.lt_succ_of_le hr')
    | drw x y n =>
      cases (exec_drw_ok hr).symm.trans h
      exact exec_drw_ok hr'
    | ldB x =>
      cases (exec_ldB_ok hr).symm.trans h
      exact exec_ldB_ok hr'
    | stRegs x =>
      cases (exec_stRegs_ok hr).symm.trans h
      exact exec_stRegs_ok hr'
    | ldRegs x =>
      cases (exec_ldRegs_ok hr).symm.trans h
      exact exec_ldRegs_ok hr'
    | seImm | sneImm | seReg | sneReg =>
      cases h
      exact congrArg Host.Outcome.next (State.skipIf_withHost s inp pend n _)
    | _ =>
      cases h
      rfl
  · have hr' := mt (operandsInRange_withHost s inp pend n i).1 hr
    obtain ⟨k, hk, hraise⟩ := exec_outOfRange hr
    obtain ⟨k', hk', hraise'⟩ := exec_outOfRange hr'
    rw [operandFault_withHost, hk] at hk'
    cases hk'
    cases hraise.symm.trans h
    exact hraise'

end Sys2Proof.Machine

/-! PROOFS. The statements about the cycle and the step that remain: the fetch fault, the stop, the host's turn, the wait, and
the jump to itself. -/

namespace Sys2Proof.Machine

/-! ## The host's side of a cycle (R55, R210) -/

theorem SameExcept.refresh (s : State) : SameExcept [.host] s s.refresh := by
  simp [SameExcept, Part.forall_iff, Part.Same, State.getV]

theorem SameExcept.setRun (s : State) (r : RunStatus) : SameExcept [.run] s (s.setRun r) := by
  simp [SameExcept, Part.forall_iff, Part.Same, State.getV]

/-- The host's turn changes its own side, and RUN. -/
theorem SameExcept.afterCycle (s : State) : SameExcept [.run, .host] s s.afterCycle :=
  ((SameExcept.refresh s).trans (.setRun s.refresh _)).mono (by decide)

/-- No operation writes the host's side. -/
theorem exec_keeps_host {i : Instr} {s t : State} (h : exec i s = .next t) : Part.host.Same s t := by
  by_cases hr : OperandsInRange s i
  · have hhost : Part.host ∉ writtenParts i := by cases i <;> simp [writtenParts]
    exact exec_frame hr h .host hhost
  · obtain ⟨k, -, hk⟩ := exec_outOfRange hr
    cases hk.symm.trans h
    exact ⟨rfl, rfl, rfl⟩

/-- No cycle writes the host's side: it moves between cycles only. -/
theorem cycle_keeps_host {s t : State} (h : cycle s = .next t) : Part.host.Same s t := by
  rcases cycle_cases s with ⟨-, hfault⟩ | ⟨-, hnop⟩ | ⟨i, -, -, hexec⟩
  · cases hfault.symm.trans h
    exact ⟨rfl, rfl, rfl⟩
  · cases hnop.symm.trans h
    exact ⟨rfl, rfl, rfl⟩
  · have hhost : Part.host.Same s.tick.advance t := exec_keeps_host (hexec.symm.trans h)
    exact hhost

/-- What the host presents next depends on its own side alone. -/
theorem nextInputs_of_same_host {s t : State} (h : Part.host.Same s t) : t.nextInputs = s.nextInputs := by
  obtain ⟨-, hpend, hturn⟩ := h
  rw [State.nextInputs, State.nextInputs, hpend, hturn]

theorem State.nextInputs_cons {s : State} {inp : HostInputs} {rest : List HostInputs} (h : s.pending = inp :: rest) :
    s.nextInputs = inp := by
  rw [State.nextInputs, h]

/-- The step of a completed cycle is the host's turn after it. -/
theorem step_of_cycle {s t : State} (hrun : s.run = .running) (h : cycle s = .next t) : step s = .next t.afterCycle := by
  rw [step_running s hrun, h, settle]

/-! ## The settled statements of the cycle and the step -/

/-- Settles O10: the fetch fault writes DT and RUN, and the host's turn leaves FAULTED as it is. -/
theorem fetchPastTheEndFaults : Obligations.FetchPastTheEndFaults := by
  intro s hrun hpc
  have hcycle := cycle_fetchFault s hpc
  set k : FaultKind := .memOutOfBounds (max s.pc.toNat 0x1000)
  set t := s.tick.raise k
  have hsame : SameExcept [.run, .host] t t.afterCycle := .afterCycle t
  have hkept : t.afterCycle.run = t.run := t.afterCycle_run_faulted rfl
  exact ⟨t, hcycle, rfl, s.tick_dt_toNat, (SameExcept.setDT s _).trans (.setRun s.tick _),
    t.afterCycle, step_of_cycle hrun hcycle, hkept, hsame.of_cons hkept⟩

/-- Settles O11: the step looks at RUN first. -/
theorem stoppedBlockTakesNoCycle : Obligations.StoppedBlockTakesNoCycle :=
  fun s => ⟨fun _ => step_stopped s, step_halted s⟩

/-- Settles O12: the cycle leaves the host's side alone, so the turn after it presents what was pending before it. -/
theorem closeRequestIsSampledAfterTheCycle : Obligations.CloseRequestIsSampledAfterTheCycle := by
  intro s t hrun h
  have hhost := cycle_keeps_host h
  have hnext : t.nextInputs = s.nextInputs := nextInputs_of_same_host hhost
  obtain ⟨-, hpend, -⟩ := hhost
  refine ⟨t.afterCycle, step_of_cycle hrun h, hnext, .afterCycle t, fun hr => ?_, fun k => t.afterCycle_run_faulted,
    fun inp rest hcons => ⟨?_, ?_⟩⟩
  · rw [t.afterCycle_run_running hr, hnext]
  · rw [t.afterCycle_inputs, hnext, State.nextInputs_cons hcons]
  · rw [t.afterCycle_pending, hpend, hcons, List.tail_cons]

/-- Settles O13: the operation waits, so the step is the host's alone. -/
theorem waitForKeyChangesNothing : Obligations.WaitForKeyChangesNothing := by
  intro s x hf hkey
  have hwait : exec (.ldVxK x) s.atOperation = .fault .awaitingKey := exec_ldVxK_wait x hkey
  exact ⟨s.refresh, (stepRunsTheFetchedInstruction s _ hf).2 hwait, rfl, .refresh s⟩

/-- Settles O50: the jump restores the pc that the advance moved, so the word at pc is the same jump again. -/
theorem jumpToSelfIsStable : Obligations.JumpToSelfIsStable := by
  rintro s ⟨nnn, hf, hpc⟩
  obtain ⟨hrun, hrange, hword⟩ := hf
  set t := s.tick.advance.setPc (zextAddr nnn)
  have hcycle : cycle s = .next t := cycle_instr s _ hrange hword
  have htpc : t.afterCycle.pc = s.pc := hpc.symm
  have hframe : SameExcept [.pc, .dt, .run, .host] s t.afterCycle :=
    (((SameExcept.tick_advance s).trans (.setPc _ _)).trans (.afterCycle t)).mono (by decide)
  refine ⟨t.afterCycle, step_of_cycle hrun hcycle, hframe.of_cons htpc, s.tick_dt_toNat,
    t.afterCycle_run_running hrun, fun hrun' => ⟨nnn, ⟨hrun', ?_, ?_⟩, rfl⟩⟩
  · rwa [htpc]
  · rwa [State.wordAtPc, htpc]

end Sys2Proof.Machine

/-! PROOFS. The statements of the reset, of the construction and of the reachable states. -/

namespace Sys2Proof.Machine

/-! ## Reset (R29, R30) -/

/-- Settles O51: each register is read off the state; the framebuffer is blank, and memory lists nothing. -/
theorem resetValues : Obligations.ResetValues := by
  refine ⟨rfl, rfl, rfl, rfl, rfl, fun r => ?_, fun j => ?_, FrameBuffer.pixel_blank, fun _ => rfl⟩
  · simp [State.reset, State.getV]
  · simp [State.reset]

/-- Settles O53: memory lists nothing, pc is 0x200 and every stack entry is 0. -/
theorem resetMeetsTheInvariant : Obligations.ResetMeetsTheInvariant := by
  obtain ⟨-, -, -, -, -, -, hstack, -, -⟩ := resetValues
  exact ⟨Memory.wf_nil, by decide, fun j => by rw [hstack j]; exact Nat.zero_le _⟩

/-! ## Construction (R49, R231) -/

/-- The memory that construction loads: the font at 0, then the image at 0x200. -/
def imageMemory (font program : List Byte) : Memory :=
  Memory.writeBytes (Memory.writeBytes [] Config.fontBase font) Config.progBase program

section Construction

variable {font program : List Byte}

theorem construct_eq_some (hfont : font.length = 80) (hprog : program.length ≤ 3584) :
    State.construct font program = some (State.reset.setMem (imageMemory font program)) := by
  have hf : fontWellFormed font = true := beq_iff_eq.2 hfont
  have hp : imageWellFormed program = true := decide_eq_true hprog
  rw [State.construct, hf, hp]
  rfl

theorem construct_eq_none (hprog : 3584 < program.length) : State.construct font program = none := by
  have hp : imageWellFormed program = false := decide_eq_false (not_le.2 hprog)
  rw [State.construct, hp, Bool.and_false]
  rfl

/-- Only well-formed parameters build a machine, and what they build is reset with the memory loaded. -/
theorem of_construct_eq_some {s : State} (h : State.construct font program = some s) :
    font.length = 80 ∧ program.length ≤ 3584 ∧ s = State.reset.setMem (imageMemory font program) := by
  rw [State.construct] at h
  split at h
  next hwf =>
    obtain ⟨hf, hp⟩ := Bool.and_eq_true_iff.1 hwf
    exact ⟨beq_iff_eq.1 hf, of_decide_eq_true hp, (Option.some.inj h).symm⟩
  next => cases h

theorem image_fits (hprog : program.length ≤ 3584) : Config.progBase + program.length ≤ Config.memSize :=
  Nat.add_le_add_left hprog 0x200

variable (hfont : font.length = 80) (hprog : program.length ≤ 3584)

include hfont

theorem wf_fontMemory : Memory.wf (Memory.writeBytes [] Config.fontBase font) = true :=
  Memory.wf_writeBytes font Memory.wf_nil (by rw [hfont]; decide)

/-- Past the font's 80 bytes, the memory before the image is loaded reads as zeros. -/
theorem read_fontMemory_of_ge {a : Nat} (ha : 80 ≤ a) :
    Memory.read (Memory.writeBytes [] Config.fontBase font) a = 0 := by
  have hlen : Config.font.length ≤ a := ha
  rw [Memory.read_writeBytes_outside [] font (.inr (by rw [hfont, Config.fontBase]; omega)), Memory.read, resetByte,
    List.getElem?_eq_none hlen, Option.getD_none]

theorem read_imageMemory_font {k : Nat} (hk : k < font.length) : Memory.read (imageMemory font program) k = font[k] := by
  have hread := Memory.read_writeBytes_add Memory.wf_nil (a := Config.fontBase) (by rw [hfont]; decide) hk
  rw [Config.fontBase, Nat.zero_add] at hread
  rw [imageMemory, Memory.read_writeBytes_outside _ program (.inl (by rw [Config.progBase]; omega)), Config.fontBase, hread]

theorem read_imageMemory_zero {a : Nat} (h80 : 80 ≤ a) (ha : a < 0x200 ∨ 0x200 + program.length ≤ a) :
    Memory.read (imageMemory font program) a = 0 := by
  exact (Memory.read_writeBytes_outside _ program ha).trans (read_fontMemory_of_ge hfont h80)

include hprog

theorem wf_imageMemory : Memory.wf (imageMemory font program) = true :=
  Memory.wf_writeBytes program (wf_fontMemory hfont) (image_fits hprog)

theorem read_imageMemory_program {k : Nat} (hk : k < program.length) :
    Memory.read (imageMemory font program) (0x200 + k) = program[k] :=
  Memory.read_writeBytes_add (wf_fontMemory hfont) (image_fits hprog) hk

end Construction

/-- Settles O52: the two stores of construction, read back and framed. -/
theorem constructionPlacesFontAndImage : Obligations.ConstructionPlacesFontAndImage := by
  refine fun font program hfont => ⟨fun hprog => ?_, construct_eq_none⟩
  exact ⟨_, construct_eq_some hfont hprog, fun _ => read_imageMemory_font hfont,
    fun _ => read_imageMemory_program hfont hprog, fun _ => read_imageMemory_zero hfont, SameExcept.setMem State.reset _⟩

/-! ## Runs (R15) -/

/-- A longer run that has not stopped is a step, then a run from the state it answers. -/
theorem run_succ_eq_next {M : Host.Core} {n : Nat} {s t : M.State} (h : M.run (n + 1) s = .next t) :
    ∃ u, M.step s = .next u ∧ M.run n u = .next t := by
  rw [Host.Core.run] at h
  split at h
  next u hstep => exact ⟨u, hstep, h⟩
  next => cases h
  next => cases h

/-- A run keeps the invariant. -/
theorem run_keeps_inv {n : Nat} {s t : State} (hs : Inv s) (h : Sys2Proof.core.run n s = .next t) : Inv t := by
  induction n generalizing s with
  | zero =>
    cases h
    exact hs
  | succ n ih =>
    obtain ⟨u, hstep, hrun⟩ := run_succ_eq_next h
    exact ih (stepKeepsTheInvariant s u hs hstep) hrun

/-- A constructed machine meets the invariant. -/
theorem construct_meets_inv {font program : List Byte} {s : State} (h : State.construct font program = some s) : Inv s := by
  obtain ⟨hfont, hprog, rfl⟩ := of_construct_eq_some h
  exact ⟨wf_imageMemory hfont hprog, resetMeetsTheInvariant.2⟩

/-- Settles O55: the constructed machine meets the invariant, whatever the host's side, and a run keeps it. -/
theorem reachableStatesMeetTheInvariant : Obligations.ReachableStatesMeetTheInvariant := by
  intro font program s hs inp pend n t h
  have hinv : Inv s := construct_meets_inv hs
  exact run_keeps_inv (s := { s with inputs := inp, pending := pend }) hinv h

end Sys2Proof.Machine

/-! PROOFS. The statements of 40_control.md that remain: the call stack and the jump with an offset. -/

namespace Sys2Proof.Machine

/-- Settles O15: the pop moves SP, and its entry goes to pc as it is. -/
theorem retPopsTheReturnAddress : Obligations.RetPopsTheReturnAddress :=
  fun s => ⟨fun h => ⟨_, exec_ret_ok h, rfl, rfl, .pop_setPc s _ _⟩, exec_ret_fault⟩

/-- Settles O17: the push writes the entry at SP and no other, and pc was already that of the following instruction. -/
theorem callPushesTheReturnAddress : Obligations.CallPushesTheReturnAddress := by
  refine fun nnn s => ⟨fun h => ⟨_, exec_call_ok h, rfl, ?_, fun j hj => ?_, zextAddr_toNat nnn, .push_setPc s _ _ _⟩,
    exec_call_fault⟩
  · exact Vector.getElem_set_self h
  · exact Vector.getElem_set_ne h j.isLt hj.symm

/-- Settles O18: the entry below the SP that the call left is the one it pushed. -/
theorem retUndoesCall : Obligations.RetUndoesCall := by
  intro nnn s t u hsp hcall husp hustack
  cases (exec_call_ok hsp).symm.trans hcall
  have hpos : 0 < u.sp.val := by rw [husp]; exact Nat.succ_pos _
  refine ⟨_, exec_ret_ok hpos, ?_, Fin.ext ?_⟩
  · simp [husp, hustack]
  · simp [husp]

/-- `JP V0` answers one write to pc (R108). -/
theorem exec_jpV0 (nnn : Addr12) (s : State) : exec (.jpV0 nnn) s = .next (s.setPc (offsetTarget nnn (s.getV 0))) := rfl

/-- Settles O20: the 16-bit sum of a 12-bit and an 8-bit number is exact. -/
theorem jumpV0AddsTheOffset : Obligations.JumpV0AddsTheOffset :=
  fun nnn s => ⟨_, exec_jpV0 nnn s, offsetTarget_toNat nnn _, .setPc s _⟩

end Sys2Proof.Machine

/-! PROOFS. The statements of 41_alu.md that remain: the flag writers and the random byte. -/

namespace Sys2Proof.Machine

/-! ## What the flag writers and RND answer (R127 to R132) -/

theorem exec_addReg (x y : Reg) (s : State) :
    exec (.addReg x y) s = .next (s.setFlagThenV (carryFlag (s.getV x) (s.getV y)) x (s.getV x + s.getV y)) := rfl

theorem exec_sub (x y : Reg) (s : State) :
    exec (.sub x y) s = .next (s.setFlagThenV (signFlag (s.getV x - s.getV y)) x (s.getV x - s.getV y)) := rfl

theorem exec_subn (x y : Reg) (s : State) :
    exec (.subn x y) s = .next (s.setFlagThenV (signFlag (s.getV y - s.getV x)) x (s.getV y - s.getV x)) := rfl

theorem exec_shr (x y : Reg) (s : State) :
    exec (.shr x y) s = .next (s.setFlagThenV (shiftOutLow (s.getV x)) x (s.getV x >>> 1)) := rfl

theorem exec_shl (x y : Reg) (s : State) :
    exec (.shl x y) s = .next (s.setFlagThenV (shiftOutHigh (s.getV x)) x (s.getV x <<< 1)) := rfl

theorem exec_rnd (x : Reg) (kk : Byte) (s : State) :
    exec (.rnd x kk) s = .next (s.setV x (s.inputs.rand &&& kk)) := rfl

/-! ## Bytes and flags as numbers -/

theorem byte_sub_toNat (b c : Byte) : (b - c).toNat = (b.toNat + 256 - c.toNat) % 256 := by
  have hc := c.isLt
  rw [BitVec.toNat_sub]
  omega

theorem byte_sub_eq_ofNat (b c : Byte) : b - c = BitVec.ofNat 8 ((b.toNat + 256 - c.toNat) % 256) := by
  rw [← byte_sub_toNat, BitVec.ofNat_toNat, BitVec.setWidth_eq]

theorem carryFlag_eq (b c : Byte) : carryFlag b c = if b.toNat + c.toNat > 255 then 1 else 0 := by
  simp only [carryFlag, flagOf, decide_eq_true_eq]

/-- Bit 7 of a byte is set from 128 on. -/
theorem getLsbD_seven (b : Byte) : b.getLsbD 7 = decide (128 ≤ b.toNat) := by
  rw [← BitVec.msb_eq_getLsbD_last, BitVec.msb_eq_decide]

theorem signFlag_eq (d : Byte) : signFlag d = if d.toNat ≥ 128 then 1 else 0 := by
  simp only [signFlag, flagOf, getLsbD_seven, decide_eq_true_eq, ge_iff_le]

theorem shiftOutLow_eq (b : Byte) : shiftOutLow b = BitVec.ofNat 8 (b.toNat % 2) := by
  rw [shiftOutLow, ← Nat.and_one_is_mod, BitVec.ofNat_and, BitVec.ofNat_toNat, BitVec.setWidth_eq]
  rfl

theorem shiftOutHigh_eq (b : Byte) : shiftOutHigh b = if b.toNat ≥ 128 then 0x80 else 0x00 := by
  have hbit : shiftOutHigh b = if b.getLsbD 7 then 0x80 else 0x00 := BitVec.and_twoPow b 7
  rw [hbit, getLsbD_seven]
  simp only [decide_eq_true_eq, ge_iff_le]

theorem byte_shiftRight_one_eq_ofNat (b : Byte) : b >>> 1 = BitVec.ofNat 8 (b.toNat / 2) := by
  apply BitVec.eq_of_toNat_eq
  rw [BitVec.toNat_ushiftRight, Nat.shiftRight_one, BitVec.toNat_ofNat]
  omega

theorem byte_shiftLeft_one_eq_ofNat (b : Byte) : b <<< 1 = BitVec.ofNat 8 (b.toNat * 2 % 256) := by
  apply BitVec.eq_of_toNat_eq
  rw [BitVec.toNat_shiftLeft, BitVec.toNat_ofNat, Nat.shiftLeft_eq, Nat.mod_mod, Nat.pow_one]

/-! ## The settled statements of the flag writers and RND -/

/-- Settles O23: the operation writes the byte sum and the carry of the exact one. -/
theorem addSetsCarry : Obligations.AddSetsCarry := by
  intro x y s
  rw [← byte_add_eq_ofNat, ← carryFlag_eq]
  exact .of_exec (exec_addReg x y s)

/-- Settles O24: both operations write a byte difference and its bit 7. -/
theorem subtractSetsSign : Obligations.SubtractSetsSign := by
  intro x y s
  rw [← byte_sub_eq_ofNat, ← byte_sub_eq_ofNat, ← byte_sub_toNat, ← byte_sub_toNat, ← signFlag_eq, ← signFlag_eq]
  exact ⟨.of_exec (exec_sub x y s), .of_exec (exec_subn x y s)⟩

/-- Settles O25: both operations write the shifted byte and the masked bit. -/
theorem shiftsSetTheBitShiftedOut : Obligations.ShiftsSetTheBitShiftedOut := by
  intro x y s
  rw [← byte_shiftRight_one_eq_ofNat, ← byte_shiftLeft_one_eq_ofNat, ← shiftOutLow_eq, ← shiftOutHigh_eq]
  exact ⟨.of_exec (exec_shr x y s), .of_exec (exec_shl x y s)⟩

/-- Settles O26: in the signed range the wrapped difference is 128 or more exactly when the exact one is negative. -/
theorem subFlagIsBorrowInSignedRange : Obligations.SubFlagIsBorrowInSignedRange := by
  intro x y s t hx hexec hhigh hlow
  have hy := (s.getV y).isLt
  cases (exec_sub x y s).symm.trans hexec
  rw [State.getV_setFlagThenV, if_neg (Ne.symm hx), if_pos rfl, signFlag_eq, byte_sub_toNat]
  split
  next hflag => exact ⟨fun _ => by omega, fun _ => rfl⟩
  next hflag => exact ⟨fun e => absurd e (by decide), fun _ => by omega⟩

/-- Settles O27: the operation is one write of the presented byte, masked. -/
theorem randomByteIsMasked : Obligations.RandomByteIsMasked :=
  fun x kk s => .of_exec (exec_rnd x kk s)

end Sys2Proof.Machine

/-! PROOFS. The statements of 20_memory.md and 42_index_memory.md that remain: the index register, the transfers, and the
canonical form. -/

namespace Sys2Proof.Machine

/-! ## The index register (R142, R143) -/

theorem exec_addI (x : Reg) (s : State) : exec (.addI x) s = .next (s.setI (s.i + zextByte (s.getV x))) := rfl

theorem exec_ldF (x : Reg) (s : State) : exec (.ldF x) s = .next (s.setI (glyphAddr (s.getV x))) := rfl

/-- The largest glyph address, 255 * 5, fits in 16 bits. -/
theorem glyphAddr_toNat (b : Byte) : (glyphAddr b).toNat = b.toNat * 5 := by
  have hb := b.isLt
  have h5 : (5 : Word).toNat = 5 := rfl
  rw [glyphAddr, BitVec.toNat_mul, zextByte_toNat, h5]
  omega

/-- Settles O29: each operation is one write to I. -/
theorem addIndexAndGlyphAddress : Obligations.AddIndexAndGlyphAddress := by
  refine fun x s => ⟨⟨_, exec_addI x s, ?_, .setI s _⟩, ⟨_, exec_ldF x s, glyphAddr_toNat _, .setI s _⟩⟩
  rw [State.setI_i, BitVec.toNat_add, zextByte_toNat]

/-! ## The transfers (R144 to R146) -/

/-- Settles O31: the digits stored are read back, and each is below 256. -/
theorem bcdStoresThreeDigits : Obligations.BcdStoresThreeDigits := by
  refine fun x s hm => ⟨fun hi => ?_, exec_ldB_fault⟩
  have hfit : s.i.toNat + (bcdDigits (s.getV x)).length ≤ Config.memSize := Nat.add_le_add_right hi 3
  have hread : ∀ k (hk : k < 3), Memory.read (Memory.writeBytes s.mem s.i.toNat (bcdDigits (s.getV x))) (s.i.toNat + k) =
      (bcdDigits (s.getV x))[k] := fun k hk => Memory.read_writeBytes_add hm hfit hk
  have hv := (s.getV x).isLt
  refine ⟨_, exec_ldB_ok hi, ?_, ?_, ?_, .setMem_writeBytes s _ (bcdDigits (s.getV x)), .setMem s _⟩
  · exact (congrArg BitVec.toNat (hread 0 (by decide))).trans (Nat.mod_eq_of_lt (by omega))
  · exact (congrArg BitVec.toNat (hread 1 (by decide))).trans (Nat.mod_eq_of_lt (by omega))
  · exact (congrArg BitVec.toNat (hread 2 (by decide))).trans (Nat.mod_eq_of_lt (by omega))

/-- The run `V[0..x]` stored in range is read back register by register. -/
theorem read_writeBytes_regRun {s : State} {x k : Reg} (hm : Memory.wf s.mem = true) (hi : s.i.toNat + x.val ≤ 0xFFF)
    (hk : k.val ≤ x.val) :
    Memory.read (Memory.writeBytes s.mem s.i.toNat (s.regRun x)) (s.i.toNat + k.val) = s.getV k := by
  have hlen := s.length_regRun x
  have hfit : s.i.toNat + (s.regRun x).length ≤ Config.memSize := by rw [hlen]; exact Nat.succ_le_succ hi
  have hlt : k.val < (s.regRun x).length := by omega
  rw [Memory.read_writeBytes_add hm hfit hlt, State.getElem_regRun]

/-- Settles O32: the store of the run, read back and framed. -/
theorem storeRegistersFillsTheRun : Obligations.StoreRegistersFillsTheRun := by
  refine fun x s hm => ⟨fun hi => ?_, exec_stRegs_fault⟩
  have hframe := MemSameOutside.setMem_writeBytes s s.i.toNat (s.regRun x)
  rw [State.length_regRun] at hframe
  exact ⟨_, exec_stRegs_ok hi, fun k => read_writeBytes_regRun hm hi, hframe, .setMem s _⟩

/-- A register of the run loaded from `I` holds its byte of memory. -/
theorem getV_loadRegRun_readBytes (s : State) {m : Memory} {a : Nat} {x k : Reg} (hk : k.val ≤ x.val) :
    (s.loadRegRun (Memory.readBytes m a (x.val + 1))).getV k = Memory.read m (a + k.val) := by
  have hlt : k.val < (Memory.readBytes m a (x.val + 1)).length := by
    rw [Memory.length_readBytes]
    exact Nat.lt_succ_of_le hk
  rw [State.getV_loadRegRun, dif_pos hlt, Memory.getElem_readBytes]

/-- Settles O33: the load of the run, register by register; the access matrix gives the other registers. -/
theorem loadRegistersReadsTheRun : Obligations.LoadRegistersReadsTheRun := by
  refine fun x s => ⟨fun hi => ?_, exec_ldRegs_fault⟩
  have hexec : exec (.ldRegs x) s = .next _ := exec_ldRegs_ok hi
  exact ⟨_, hexec, fun k => getV_loadRegRun_readBytes s,
    fun k hk => exec_regs_frame (i := .ldRegs x) hi hexec (decide_eq_false (not_le.2 hk)), .loadRegRun s _⟩

/-- Settles O34: what the store puts into memory is what the load reads from it. -/
theorem storeThenLoadRestoresRegisters : Obligations.StoreThenLoadRestoresRegisters := by
  intro x s t u hm hi hstore hmem hidx
  obtain ⟨hst, -⟩ := storeRegistersFillsTheRun x s hm
  obtain ⟨t', hstore', hread, -, hsame⟩ := hst hi
  cases hstore'.symm.trans hstore
  have hti : t.i = s.i := hsame .i (by decide)
  have hui : u.i.toNat = s.i.toNat := by rw [hidx, hti]
  obtain ⟨hld, -⟩ := loadRegistersReadsTheRun x u
  obtain ⟨v, hload, hregs, -, -⟩ := hld (hui ▸ hi)
  refine ⟨v, hload, fun k hk => ?_⟩
  rw [hregs k hk, hmem, hui, hread k hk]

/-- Settles O35: the two bytes stored at pc are the word that the fetch reads. -/
theorem storeIsSeenByTheNextFetch : Obligations.StoreIsSeenByTheNextFetch := by
  intro x s t hm hx hi hpc hstore
  obtain ⟨hst, -⟩ := storeRegistersFillsTheRun x s hm
  obtain ⟨t', hstore', hread, -, hsame⟩ := hst hi
  cases hstore'.symm.trans hstore
  have htpc : t.pc = s.i := Eq.trans (hsame .pc (by decide)) hpc.symm
  have hhigh : Memory.read t.mem t.pc.toNat = s.getV 0 := htpc ▸ hread 0 (Nat.zero_le _)
  have hlow : Memory.read t.mem (t.pc.toNat + 1) = s.getV 1 := htpc ▸ hread 1 hx
  rw [t.fetch_ok (by rw [htpc]; omega), hhigh, hlow]

/-! ## The canonical form (R40) -/

/-- In canonical form the first listed address reads as its byte, which is not the byte of reset. -/
theorem Memory.read_head_ne {lo a : Nat} {u : Byte} {rest : Memory} (h : Memory.wfFrom lo ((a, u) :: rest) = true) :
    Memory.read ((a, u) :: rest) a ≠ resetByte a := by
  simp only [Memory.wfFrom, Bool.and_eq_true, decide_eq_true_eq] at h
  obtain ⟨⟨-, hu⟩, -⟩ := h
  simpa [Memory.read] using hu

theorem Memory.wfFrom_tail {lo a : Nat} {u : Byte} {rest : Memory} (h : Memory.wfFrom lo ((a, u) :: rest) = true) :
    Memory.wfFrom (a + 1) rest = true := by
  simp only [Memory.wfFrom, Bool.and_eq_true] at h
  exact h.2

/-- A listed memory starts at its first address, whatever the bound its form was checked from. -/
theorem Memory.wfFrom_head {lo a : Nat} {u : Byte} {rest : Memory} (h : Memory.wfFrom lo ((a, u) :: rest) = true) :
    Memory.wfFrom a ((a, u) :: rest) = true := by
  simp only [Memory.wfFrom, Bool.and_eq_true, decide_eq_true_eq] at h ⊢
  obtain ⟨⟨⟨-, ha⟩, hu⟩, hrest⟩ := h
  exact ⟨⟨⟨le_rfl, ha⟩, hu⟩, hrest⟩

/-- A memory that lists `a` first reads otherwise at `a` than one whose addresses all lie above it. -/
theorem Memory.head_le_of_reads_eq {lo a : Nat} {u : Byte} {rest m : Memory} {b : Nat}
    (h : Memory.wfFrom lo ((a, u) :: rest) = true) (hm : Memory.wfFrom b m = true)
    (hread : Memory.read ((a, u) :: rest) a = Memory.read m a) : b ≤ a := by
  by_contra hab
  exact Memory.read_head_ne h (hread.trans (Memory.read_of_lt hm (not_le.1 hab)))

theorem Memory.eq_of_reads_eq {lo lo' : Nat} {m m' : Memory} (hm : Memory.wfFrom lo m = true)
    (hm' : Memory.wfFrom lo' m' = true) (hread : ∀ a, Memory.read m a = Memory.read m' a) : m = m' := by
  induction m generalizing lo lo' m' with
  | nil =>
    cases m' with
    | nil => rfl
    | cons c' rest' => exact absurd (hread c'.1).symm (Memory.read_head_ne hm')
  | cons c rest ih =>
    obtain ⟨a, u⟩ := c
    cases m' with
    | nil => exact absurd (hread a) (Memory.read_head_ne hm)
    | cons c' rest' =>
      obtain ⟨b, w⟩ := c'
      have hba := Memory.head_le_of_reads_eq hm (Memory.wfFrom_head hm') (hread a)
      have hab := Memory.head_le_of_reads_eq hm' (Memory.wfFrom_head hm) (hread b).symm
      obtain rfl : a = b := le_antisymm hab hba
      have huw : u = w := by simpa [Memory.read] using hread a
      have htail := Memory.wfFrom_tail hm
      have htail' := Memory.wfFrom_tail hm'
      have hrest : ∀ c, Memory.read rest c = Memory.read rest' c := by
        intro c
        by_cases hc : c = a
        · rw [hc, Memory.read_of_lt htail (Nat.lt_succ_self a), Memory.read_of_lt htail' (Nat.lt_succ_self a)]
        · simpa [Memory.read, hc] using hread c
      rw [huw, ih htail htail' hrest]

/-- Settles O36: the first listed addresses agree, since each reads as no reset byte, and so on down the lists. -/
theorem canonicalMemoriesAreEqual : Obligations.CanonicalMemoriesAreEqual :=
  fun _ _ => Memory.eq_of_reads_eq

end Sys2Proof.Machine

/-! PROOFS. The statements of 43_display.md that remain: the blit as an exclusive or, and the draw of a sprite at I. -/

namespace Sys2Proof.Machine

/-- A toggle of a set of cells, made twice, restores every cell. -/
theorem Toggles.twice {S : Fin 64 → Fin 32 → Prop} {p q q' r : FrameBuffer × Bool} (hpq : Toggles S p q)
    (hqr : Toggles S q' r) (hq : q'.1 = q.1) : r.1 = p.1 := by
  refine FrameBuffer.ext_pixel fun cx cy => Bool.eq_iff_iff.2 ?_
  rw [hqr.pixel_iff, hq, hpq.pixel_iff]
  tauto

/-- The cells of the set that are on after a toggle are those that it turned on. -/
theorem Toggles.hit_and_on_iff {S : Fin 64 → Fin 32 → Prop} {p q : FrameBuffer × Bool} (h : Toggles S p q) (cx : Fin 64)
    (cy : Fin 32) : S cx cy ∧ FrameBuffer.pixel q.1 cx cy = true ↔
      FrameBuffer.pixel p.1 cx cy = false ∧ FrameBuffer.pixel q.1 cx cy = true := by
  rw [← Bool.not_eq_true (FrameBuffer.pixel p.1 cx cy), h.pixel_iff]
  tauto

/-- Settles O39: the draw toggles the cells of its mask. -/
theorem drawXorsTheSpriteMask : Obligations.DrawXorsTheSpriteMask := by
  intro fb x0 y0 sprite hlen
  have h := FrameBuffer.draw_toggles fb x0 y0 (hlen.trans (by decide))
  exact ⟨h.pixel_iff, by simpa using h.collision_iff⟩

/-- Settles O41: two toggles of the same cells cancel, and the second meets on what the first turned on. -/
theorem drawingTwiceRestores : Obligations.DrawingTwiceRestores := by
  intro fb x0 y0 sprite hlen
  have hlen32 : sprite.length ≤ 32 := hlen.trans (by decide)
  have h1 := FrameBuffer.draw_toggles fb x0 y0 hlen32
  have h2 := FrameBuffer.draw_toggles (FrameBuffer.draw fb x0 y0 sprite).1 x0 y0 hlen32
  refine ⟨h1.twice h2 rfl, ?_⟩
  rw [h2.collision_iff]
  simp only [Bool.false_eq_true, false_or, h1.hit_and_on_iff]

/-- Settles O38: in range the draw of the run at I, out of range the fault; a sprite of no rows draws nothing. -/
theorem drawReadsTheSpriteAtI : Obligations.DrawReadsTheSpriteAtI := by
  refine fun x y n s => ⟨fun hr => ?_, exec_drw_fault⟩
  have hexec : exec (.drw x y n) s = .next _ := exec_drw_ok hr
  refine ⟨_, hexec, rfl, State.getV_drawSprite s _ _ _ 15, fun hn => ?_, fun r hr15 => ?_, rfl, .drawSprite s _ _ _⟩
  · rw [hn]
    exact ⟨rfl, State.getV_drawSprite s _ _ _ 15⟩
  · rw [State.getV_drawSprite, if_neg fun e => hr15 (List.mem_singleton.2 e)]

end Sys2Proof.Machine

/-! PROOFS. The statements of 44_input_timer.md that remain: the key skips, the key event and the timer read. -/

namespace Sys2Proof.Machine

/-- Settles O42: in range the latch decides the skip, and SKNP negates it. -/
theorem keySkipsReadTheLatch : Obligations.KeySkipsReadTheLatch := by
  refine fun x s => ⟨fun h => ⟨?_, ?_⟩, fun h => ⟨exec_skp_fault h, exec_sknp_fault h⟩⟩
  · exact .of_exec Iff.rfl (exec_skp_ok h)
  · exact .of_exec (Bool.not_eq_true' _).to_iff (exec_sknp_ok h)

/-- `LD Vx, DT` answers one write of the timer to Vx (R183). -/
theorem exec_ldVxDT (x : Reg) (s : State) : exec (.ldVxDT x) s = .next (s.setV x s.dt) := rfl

/-- Settles O43: the operation reads the timer of the state that the tick left. -/
theorem timerReadIsAfterTheTick : Obligations.TimerReadIsAfterTheTick := by
  refine fun x s => ⟨.of_exec (exec_ldVxDT x s), fun hf => ?_⟩
  obtain ⟨hdt, -⟩ := everyCycleTicksTheTimer s
  refine ⟨_, hf.cycle_eq.trans (exec_ldVxDT x s.atOperation), ?_, hdt⟩
  rw [State.getV_setV_same, hdt]

/-- Settles O45: with an event the operation is one write of the key's number. -/
theorem keyEventIsLoaded : Obligations.KeyEventIsLoaded :=
  fun x _ _ h => .of_exec (exec_ldVxK_event x h)

end Sys2Proof.Machine
